-- ==== Sys2Proof/Word.lean ====
section
/-! DEFINITION. The widths of the hardware (spec/00_scope.md R6): bytes, host words, ROM addresses and the
scratch-pad image. Arrays of bytes keep the manual's own shape: index `k` is byte `k` (R8). -/

namespace Sys2Proof

/-- A byte is 8 bits (R8). -/
abbrev Byte := BitVec 8

/-- A host register, and a command word, is 32 bits (R6, R23, R60). -/
abbrev Word := BitVec 32

/-- A host register number is 6 bits, 0x00 to 0x3F (R40). -/
abbrev RegNo := BitVec 6

/-- A ROM address is 8 bytes: byte 0 the family code, bytes 1 to 6 the serial number, byte 7 the CRC-8 (R11). -/
abbrev RomAddr := Vector Byte 8

/-- The scratch-pad RAM image is 9 bytes (R12). -/
abbrev ScratchPad := Vector Byte 9

end Sys2Proof
end

