-- ==== Sys2Proof/Syntax.lean ====
section
/-! DEFINITION. The commands of OWMC command set 1.0 (spec/30_encoding.md R64), one constructor per row of
spec/opcode_table.json. -/

namespace Sys2Proof

/-- A command (R64). A modifier the operation does not take and an immediate it does not use have no place here
(R62, R63). -/
inductive Instr where
  /-- `NOP` (R192). -/
  | nop
  /-- `RESET` (R95). -/
  | reset
  /-- `WBIT b` (R96). -/
  | wbit (b : Bool)
  /-- `RBIT` (R97). -/
  | rbit
  /-- `WBYTE v` (R98). -/
  | wbyte (v : Byte)
  /-- `RBYTE` (R99). -/
  | rbyte
  /-- `CRCI seed` (R113). -/
  | crci (seed : Byte)
  /-- `CRCB byte` (R114). -/
  | crcb (byte : Byte)
  /-- `CRCD` (R115). -/
  | crcd
  /-- `CRCROM` (R116). -/
  | crcrom
  /-- `CRCRAM` (R117). -/
  | crcram
  /-- `MATCH` (R126). -/
  | matchrom
  /-- `SKIP` (R127). -/
  | skip
  /-- `RDROM` (R129). -/
  | rdrom
  /-- `FINDALL` (R152). -/
  | findall
  /-- `LDADDR index` (R133): a registry index, 0 to 255 (R63). -/
  | ldaddr (index : Nat)
  /-- `CLRREG` (R188). -/
  | clrreg
  /-- `RDSP` (R166). -/
  | rdsp
  /-- `WRSP word` (R168). -/
  | wrsp (word : BitVec 16)
  /-- `PWRQ` and `PWRQ.ALL` (R170). -/
  | pwrq (all : Bool)
  /-- `CONVT`, `CONVT.ALL`, `CONVT.WAIT`, `CONVT.ALL.WAIT` (R185). -/
  | convt (all wait : Bool)
  /-- `SETRES bits` (R173): a number of bits, 0 to 255 (R63). -/
  | setres (bits : Nat)
  /-- `INIT` (R190). -/
  | init
  deriving DecidableEq, Repr

end Sys2Proof
end

