-- ==== Sys2Proof/WellFormed.lean ====
section
/-! DEFINITION. Which commands a command word can carry: the ranges of spec/30_encoding.md R63. -/

namespace Sys2Proof

/-- The range R63 gives each immediate. The operands held as bits are in range by their width; the registry index
and the number of resolution bits are numbers, and fit `IMM[7:0]`. -/
def Instr.wf : Instr → Bool
  | .ldaddr index => decide (index ≤ 255)
  | .setres bits => decide (bits ≤ 255)
  | .nop => true
  | .reset => true
  | .wbit _ => true
  | .rbit => true
  | .wbyte _ => true
  | .rbyte => true
  | .crci _ => true
  | .crcb _ => true
  | .crcd => true
  | .crcrom => true
  | .crcram => true
  | .matchrom => true
  | .skip => true
  | .rdrom => true
  | .findall => true
  | .clrreg => true
  | .rdsp => true
  | .wrsp _ => true
  | .pwrq _ => true
  | .convt _ _ => true
  | .init => true

end Sys2Proof
end

