-- ==== Sys2Proof/Decode.lean ====
section
/-! DEFINITION. The command word (spec/30_encoding.md R60 to R66): its fields, the decoder, the encoder, and the
machine-readable opcode table. -/

namespace Sys2Proof

/-! ## The fields of a command word (R60) -/

/-- `OP`, bits 7:0. -/
def opField (w : Word) : Byte := w.extractLsb' 0 8

/-- `ALL`, bit 8. -/
def allField (w : Word) : Bool := w.getLsbD 8

/-- `WAIT`, bit 9. -/
def waitField (w : Word) : Bool := w.getLsbD 9

/-- `RSV`, bits 15:10. -/
def rsvField (w : Word) : BitVec 6 := w.extractLsb' 10 6

/-- `IMM`, bits 31:16. -/
def immField (w : Word) : BitVec 16 := w.extractLsb' 16 16

/-! ## Decoding -/

/-- Why a word is not a command: one reason for each condition of R61. All are reported alike, as `E_ILL` (R65). -/
inductive Reject where
  /-- R61 (a): `OP` is none of the 23 assigned values. -/
  | unassignedOp
  /-- R61 (b): `RSV` is not 0. -/
  | reservedBits
  /-- R61 (c): `ALL` on an operation that does not take it. -/
  | allNotTaken
  /-- R61 (d): `WAIT` on an operation that does not take it. -/
  | waitNotTaken
  /-- R61 (e): a bit of `IMM` that the operation does not use is not 0. -/
  | immBitsNotUsed
  deriving DecidableEq, Repr

/-- What R62 to R64 say of one operation: whether it takes the modifiers, which bits of `IMM` it uses, and the
command that the fields of a word make. -/
structure OpRow where
  takesAll  : Bool := false
  takesWait : Bool := false
  immUsed   : BitVec 16 := 0
  instr     : Instr
  deriving DecidableEq, Repr

/-- The opcode map of R64 with the immediates of R63, read on the word `w`. -/
def opRow (w : Word) : Option OpRow :=
  match (opField w).toNat with
  | 0x00 => some { instr := .nop }
  | 0x01 => some { instr := .reset }
  | 0x02 => some { immUsed := 0x0001, instr := .wbit ((immField w).getLsbD 0) }
  | 0x03 => some { instr := .rbit }
  | 0x04 => some { immUsed := 0x00FF, instr := .wbyte ((immField w).extractLsb' 0 8) }
  | 0x05 => some { instr := .rbyte }
  | 0x10 => some { immUsed := 0x00FF, instr := .crci ((immField w).extractLsb' 0 8) }
  | 0x11 => some { immUsed := 0x00FF, instr := .crcb ((immField w).extractLsb' 0 8) }
  | 0x12 => some { instr := .crcd }
  | 0x13 => some { instr := .crcrom }
  | 0x14 => some { instr := .crcram }
  | 0x20 => some { instr := .matchrom }
  | 0x21 => some { instr := .skip }
  | 0x22 => some { instr := .rdrom }
  | 0x23 => some { instr := .findall }
  | 0x24 => some { immUsed := 0x00FF, instr := .ldaddr ((immField w).extractLsb' 0 8).toNat }
  | 0x25 => some { instr := .clrreg }
  | 0x30 => some { instr := .rdsp }
  | 0x31 => some { immUsed := 0xFFFF, instr := .wrsp (immField w) }
  | 0x32 => some { takesAll := true, instr := .pwrq (allField w) }
  | 0x33 => some { takesAll := true, takesWait := true, instr := .convt (allField w) (waitField w) }
  | 0x34 => some { immUsed := 0x00FF, instr := .setres ((immField w).extractLsb' 0 8).toNat }
  | 0x3F => some { instr := .init }
  | _ => none

/-- Decoding (R61): total on the 2^32 words, and a function of the word alone. -/
def decode (w : Word) : Except Reject Instr :=
  match opRow w with
  | none => .error .unassignedOp
  | some r =>
    if rsvField w ≠ 0 then .error .reservedBits
    else if allField w && !r.takesAll then .error .allNotTaken
    else if waitField w && !r.takesWait then .error .waitNotTaken
    else if immField w &&& ~~~r.immUsed ≠ 0 then .error .immBitsNotUsed
    else .ok r.instr

/-- The decoder on a word numbered as spec/opcode_table.json numbers it: every row is one 32-bit word, so bit `k` of
`w` is bit `k` of the command word; a row of fewer bits leaves the bits above it 0. -/
def decodeTableWord (nbits w : Nat) : Option Instr :=
  match decode (BitVec.ofNat 32 (w % 2 ^ nbits)) with
  | .ok i => some i
  | .error _ => none

/-! ## Encoding -/

/-- The word with these fields and `RSV` = 0 (R60). -/
def commandWord (op : Byte) (imm : BitVec 16) (all wait : Bool) : Word :=
  imm ++ 0#6 ++ BitVec.ofBool wait ++ BitVec.ofBool all ++ op

/-- The command word of a command, from the opcode map of R64 and the immediates of R63. -/
def encode : Instr → Word
  | .nop => commandWord 0x00 0 false false
  | .reset => commandWord 0x01 0 false false
  | .wbit b => commandWord 0x02 ((BitVec.ofBool b).setWidth 16) false false
  | .rbit => commandWord 0x03 0 false false
  | .wbyte v => commandWord 0x04 (v.setWidth 16) false false
  | .rbyte => commandWord 0x05 0 false false
  | .crci seed => commandWord 0x10 (seed.setWidth 16) false false
  | .crcb byte => commandWord 0x11 (byte.setWidth 16) false false
  | .crcd => commandWord 0x12 0 false false
  | .crcrom => commandWord 0x13 0 false false
  | .crcram => commandWord 0x14 0 false false
  | .matchrom => commandWord 0x20 0 false false
  | .skip => commandWord 0x21 0 false false
  | .rdrom => commandWord 0x22 0 false false
  | .findall => commandWord 0x23 0 false false
  | .ldaddr index => commandWord 0x24 ((BitVec.ofNat 8 index).setWidth 16) false false
  | .clrreg => commandWord 0x25 0 false false
  | .rdsp => commandWord 0x30 0 false false
  | .wrsp word => commandWord 0x31 word false false
  | .pwrq all => commandWord 0x32 0 all false
  | .convt all wait => commandWord 0x33 0 all wait
  | .setres bits => commandWord 0x34 ((BitVec.ofNat 8 bits).setWidth 16) false false
  | .init => commandWord 0x3F 0 false false

/-! ## The opcode table -/

/-- A row of spec/opcode_table.json: a word `w` is the row's command iff `(w & mask) == value` (R61). -/
structure TableRow where
  mask  : Word
  value : Word
  deriving DecidableEq, Repr

/-- The row of a command in spec/opcode_table.json, its `mask` and its `match`. -/
def Instr.tableRow : Instr → TableRow
  | .nop => ⟨0xFFFFFFFF, 0x00000000⟩
  | .reset => ⟨0xFFFFFFFF, 0x00000001⟩
  | .wbit _ => ⟨0xFFFEFFFF, 0x00000002⟩
  | .rbit => ⟨0xFFFFFFFF, 0x00000003⟩
  | .wbyte _ => ⟨0xFF00FFFF, 0x00000004⟩
  | .rbyte => ⟨0xFFFFFFFF, 0x00000005⟩
  | .crci _ => ⟨0xFF00FFFF, 0x00000010⟩
  | .crcb _ => ⟨0xFF00FFFF, 0x00000011⟩
  | .crcd => ⟨0xFFFFFFFF, 0x00000012⟩
  | .crcrom => ⟨0xFFFFFFFF, 0x00000013⟩
  | .crcram => ⟨0xFFFFFFFF, 0x00000014⟩
  | .matchrom => ⟨0xFFFFFFFF, 0x00000020⟩
  | .skip => ⟨0xFFFFFFFF, 0x00000021⟩
  | .rdrom => ⟨0xFFFFFFFF, 0x00000022⟩
  | .findall => ⟨0xFFFFFFFF, 0x00000023⟩
  | .ldaddr _ => ⟨0xFF00FFFF, 0x00000024⟩
  | .clrreg => ⟨0xFFFFFFFF, 0x00000025⟩
  | .rdsp => ⟨0xFFFFFFFF, 0x00000030⟩
  | .wrsp _ => ⟨0x0000FFFF, 0x00000031⟩
  | .pwrq _ => ⟨0xFFFFFEFF, 0x00000032⟩
  | .convt _ _ => ⟨0xFFFFFCFF, 0x00000033⟩
  | .setres _ => ⟨0xFF00FFFF, 0x00000034⟩
  | .init => ⟨0xFFFFFFFF, 0x0000003F⟩

/-- `(w & mask) == value`: the word is one of the row's (R61). -/
abbrev TableRow.Fits (r : TableRow) (w : Word) : Prop := w &&& r.mask = r.value

/-- The 23 rows of spec/opcode_table.json, in its order. -/
def opcodeTable : List TableRow :=
  [Instr.tableRow .nop, Instr.tableRow .reset, Instr.tableRow (.wbit false), Instr.tableRow .rbit,
    Instr.tableRow (.wbyte 0), Instr.tableRow .rbyte, Instr.tableRow (.crci 0), Instr.tableRow (.crcb 0)] ++
  [Instr.tableRow .crcd, Instr.tableRow .crcrom, Instr.tableRow .crcram, Instr.tableRow .matchrom,
    Instr.tableRow .skip, Instr.tableRow .rdrom, Instr.tableRow .findall, Instr.tableRow (.ldaddr 0)] ++
  [Instr.tableRow .clrreg, Instr.tableRow .rdsp, Instr.tableRow (.wrsp 0), Instr.tableRow (.pwrq false),
    Instr.tableRow (.convt false false), Instr.tableRow (.setres 0), Instr.tableRow .init]

end Sys2Proof
end

