-- ==== Sys2Proof/Config.lean ====
section
/-! DEFINITION. What an implementation fixes (spec/00_scope.md R6) and the model's one free value. The figures the
spec takes for the parameters are `Config.spec` of Machine/Params.lean. -/

namespace Sys2Proof

/-- One row of the conversion-delay table: it applies to a device of `family` whose configuration byte, masked with
`mask`, is `bits`, and gives the delay `millis` in milliseconds (R182). -/
structure DelayRow where
  family : Byte
  mask   : Byte
  bits   : Byte
  millis : BitVec 16
  deriving DecidableEq, Repr

/-- The parameter `ConvDelay` as plain data (R6, R182): the first row that applies, else `other`; a broadcast always
gets `broadcast`. -/
structure DelayTable where
  rows      : List DelayRow
  broadcast : BitVec 16
  other     : BitVec 16
  deriving DecidableEq, Repr

/-- The parameters of R6, each a named argument of the model: the registry's capacity, the nine timing figures in
ticks of 1 µs (R7), the conversion delays. -/
structure Config where
  nDev  : Nat
  tRstl : Nat
  tPds  : Nat
  tRstt : Nat
  tLow  : Nat
  tW1h  : Nat
  tW0l  : Nat
  tW0r  : Nat
  tRds  : Nat
  tRdp  : Nat
  conv  : DelayTable
  deriving DecidableEq, Repr

/-- The range R6 gives the registry's capacity: `1 <= N_DEV <= 255`. -/
abbrev Config.Ok (c : Config) : Prop := 1 ≤ c.nDev ∧ c.nDev ≤ 255

/-- FREE VALUE (R9, U13). The level of the data line at the `n`-th `Sample()` after the samples that
`Line.bus` supplies have run out. It has no body: nothing constrains it. -/
opaque Config.freeSample : Nat → Bool

end Sys2Proof
end

