-- ==== Sys2Proof/Machine/Params.lean ====
section
/-! DEFINITION. The values the spec takes for the parameters of spec/00_scope.md R6. -/

namespace Sys2Proof

/-- The conversion delays of R182: 150 ms for family 0x3B; 94, 188, 375, 750 ms for families 0x28 and 0x22 by bits 6:5
of the configuration byte; 750 ms for a broadcast and for every other family. -/
def DelayTable.spec : DelayTable where
  rows :=
    [ ⟨0x3B, 0x00, 0x00, 150⟩,
      ⟨0x28, 0x60, 0x00, 94⟩, ⟨0x28, 0x60, 0x20, 188⟩, ⟨0x28, 0x60, 0x40, 375⟩, ⟨0x28, 0x60, 0x60, 750⟩,
      ⟨0x22, 0x60, 0x00, 94⟩, ⟨0x22, 0x60, 0x20, 188⟩, ⟨0x22, 0x60, 0x40, 375⟩, ⟨0x22, 0x60, 0x60, 750⟩ ]
  broadcast := 750
  other := 750

/-- "Value taken" of R6. -/
def Config.spec : Config where
  nDev := 16
  tRstl := 480
  tPds := 70
  tRstt := 410
  tLow := 3
  tW1h := 55
  tW0l := 60
  tW0r := 5
  tRds := 3
  tRdp := 45
  conv := .spec

end Sys2Proof
end

