-- ==== Sys2Proof/Machine/State.lean ====
section
/-! DEFINITION. The state of the controller (spec/10_state.md R10), what the model keeps beside it (the event trace,
the samples to come, the host's moves to come), the reasons to stop, and the state after hardware reset (R35). -/

namespace Sys2Proof.Machine

/-- An event of the trace (R9). -/
inductive Event where
  | driveLow
  | release
  | driveHigh
  /-- `Sample() -> v`: `true` is a high line. -/
  | sample (v : Bool)
  | pwrOn
  | pwrOff
  | critEnter
  | critExit
  /-- `Wait(n)`: `n` ticks pass. -/
  | wait (n : Nat)
  /-- The model's own mark (DESIGN CHOICE, log entry 5): here `rst` took the pins to their reset values (R247). -/
  | rst
  deriving DecidableEq, Repr

/-- The error codes of R215. -/
inductive Err where
  /-- 0 `E_NONE`. -/
  | none
  /-- 1 `E_NOPRES`. -/
  | noPres
  /-- 2 `E_COLL`. -/
  | coll
  /-- 3 `E_CRC`. -/
  | crc
  /-- 4 `E_UNSUP`. -/
  | unsup
  /-- 5 `E_ILL`. -/
  | ill
  /-- 6 `E_IDX`. -/
  | idx
  /-- 7 `E_REGOVF`. -/
  | regOvf
  deriving DecidableEq, Repr

/-- The fields of `STAT` (R18). -/
structure Stat where
  pres     : Bool
  bit      : Bool
  pwrExt   : Bool
  crcOk    : Bool
  resOk    : Bool
  srchDone : Bool
  err      : Err
  deriving DecidableEq, Repr

/-- The fields of `CTRL` (R20). -/
structure Ctrl where
  parasite : Bool
  pwrEn    : Bool
  pwrPol   : Bool
  deriving DecidableEq, Repr

/-- A move of the outside world at the host port (R34, R44) or at the input `rst` (R245, R247). -/
inductive HostMove where
  /-- `RegRead(n)`. -/
  | read (n : RegNo)
  /-- `RegWrite(n, v)`. -/
  | write (n : RegNo) (v : Word)
  /-- `rst` is asserted and released. -/
  | rst
  /-- The word `w` is written to `CMD` and `rst` is asserted when the command has made `k` events, or when it has
  ended if it makes fewer (R247). -/
  | commandCut (w : Word) (k : Nat)
  deriving DecidableEq, Repr

/-- The pins (R10: `DQ_OE`, `DQ_OUT`, `PWR_ON`, `CRIT`) and, at the other side of them, the model's own fields: the
event trace, newest first (R9, R22), and the samples to come (R9). The `k`-th sample to come is `bus[k]` and, past
the end of `bus`, a free value that `drawn` numbers. -/
structure Line where
  dqOe  : Bool
  dqOut : Bool
  pwrOn : Bool
  crit  : Bool
  trace : List Event
  bus   : List Bool
  drawn : Nat
  deriving DecidableEq, Repr

/-- The whole state: R10's, then the model's own fields.
`COUNT` is the length of `reg`, which holds the valid entries only (R15; U8 allows it). `STICKY` has the seven flags 1 to
7 and no flag 0 (R10, R19): flag `k` is bit `k - 1` of `sticky`.
`busy`: a `FINDALL` pass is under way and the write of its command has not completed (R45, R156).
`host`: the moves of the outside world to come, next first; `replies`: the values `RegRead` returned, newest first. -/
structure State where
  cfg     : Config
  addr    : RomAddr
  ram     : ScratchPad
  crc     : Byte
  data    : Byte
  reg     : List RomAddr
  srom    : RomAddr
  lastd   : BitVec 7
  mark    : BitVec 7
  delay   : BitVec 16
  stat    : Stat
  sticky  : BitVec 7
  ctrl    : Ctrl
  line    : Line
  busy    : Bool
  host    : List HostMove
  replies : List Word
  deriving DecidableEq, Repr

/-- The reasons to stop with a fault: none. R215: "The controller has no traps"; an error condition ends a command
early and is recorded in `STAT.ERR` and `STICKY` (R220), and the machine goes on. -/
inductive Fault where
  deriving DecidableEq, Repr

/-- The reasons to refuse. -/
inductive Refusal where
  /-- Raised by an arm of `exec` for a command that has no meaning in the model; no arm raises it. Safe. -/
  | notModelled (mnemonic : String)
  deriving DecidableEq, Repr

/-- The line after hardware reset (R35): released, power line off, `crit` low; no event has happened yet and no
sample is supplied. -/
def Line.reset : Line where
  dqOe := false
  dqOut := false
  pwrOn := false
  crit := false
  trace := []
  bus := []
  drawn := 0

/-- The machine right after hardware reset (R35, R245): every piece of state zero, the registry empty; the host has
made no move. -/
def State.reset : State where
  cfg := .spec
  addr := .replicate 8 0
  ram := .replicate 9 0
  crc := 0
  data := 0
  reg := []
  srom := .replicate 8 0
  lastd := 0
  mark := 0
  delay := 0
  stat := ⟨false, false, false, false, false, false, .none⟩
  sticky := 0
  ctrl := ⟨false, false, false⟩
  line := .reset
  busy := false
  host := []
  replies := []

end Sys2Proof.Machine
end

