-- ==== Sys2Proof/Machine/Flags.lean ====
section
/-! DEFINITION. Error codes and status words: the codes of spec/60_exceptions.md R215, the words of `STAT`, `STICKY`, `CTRL` and
`SRCH` as the host reads them (spec/10_state.md R18 to R20, R23), write-1-to-clear (R19, R42). -/

namespace Sys2Proof.Machine

/-- The code of an error (R215). -/
def Err.code : Err → BitVec 4
  | .none => 0
  | .noPres => 1
  | .coll => 2
  | .crc => 3
  | .unsup => 4
  | .ill => 5
  | .idx => 6
  | .regOvf => 7

/-- The flag of `STICKY` for error code `k`, 1 to 7, which is bit `k` of the register; no flag for `E_NONE` (R19). -/
def Err.stickyBit (e : Err) : BitVec 7 := (1#8 <<< e.code.toNat).extractLsb' 1 7

/-- `STICKY[k]`, for `k` in 1 to 7 (R19). -/
def State.stickyFlag (s : State) (k : Nat) : Bool := s.sticky.getLsbD (k - 1)

/-- The word of `STAT` (R18). -/
def Stat.word (f : Stat) : Word :=
  0#20 ++ f.err.code ++ 0#2 ++ BitVec.ofBool f.srchDone ++ BitVec.ofBool f.resOk ++ BitVec.ofBool f.crcOk ++
    BitVec.ofBool f.pwrExt ++ BitVec.ofBool f.bit ++ BitVec.ofBool f.pres

/-- The word of `STICKY`: flag `k` in bit `k`; bits 0 and 31:8 read as 0 (R19). -/
def stickyWord (st : BitVec 7) : Word := 0#24 ++ st ++ 0#1

/-- A host write to `STICKY`: bit `k` = 1 clears bit `k`, for `k` in 1 to 7 (R19, R42). -/
def stickyClear (st : BitVec 7) (v : Word) : BitVec 7 := st &&& ~~~v.extractLsb' 1 7

/-- The word of `CTRL` (R20). -/
def Ctrl.word (c : Ctrl) : Word :=
  0#29 ++ BitVec.ofBool c.pwrPol ++ BitVec.ofBool c.pwrEn ++ BitVec.ofBool c.parasite

/-- The fields of `CTRL` that a host write stores; bits 31:3 are dropped (R20, R42). -/
def Ctrl.ofWord (v : Word) : Ctrl := ⟨v.getLsbD 0, v.getLsbD 1, v.getLsbD 2⟩

/-- The word of `SRCH`: bits 6:0 `LASTD`, bits 14:8 `MARK` (R23). -/
def srchWord (lastd mark : BitVec 7) : Word := 0#17 ++ mark ++ 0#1 ++ lastd

end Sys2Proof.Machine
end

