-- ==== Sys2Proof/Machine/Operands.lean ====
section
/-! DEFINITION. Operand forms: packing of byte arrays into host words (spec/20_memory.md R50, spec/10_state.md R23), bit
positions of an address (R49, R141), family codes and configuration byte (R85, R173), conversion delay (R182), and the
wire command bytes (R75). -/

namespace Sys2Proof.Machine

/-! ## Wire command bytes (R75) -/

def wireSearchRom : Byte := 0xF0
def wireReadRom : Byte := 0x33
def wireMatchRom : Byte := 0x55
def wireSkipRom : Byte := 0xCC
def wireConvertTemperature : Byte := 0x44
def wireWriteScratchpad : Byte := 0x4E
def wireReadScratchpad : Byte := 0xBE
def wireReadPowerSupply : Byte := 0xB4

/-! ## Packing (R23: byte `k` in bits `8k+7 : 8k`) -/

/-- The host word of four bytes, byte 0 in the low bits. -/
def packWord (b0 b1 b2 b3 : Byte) : Word := b3 ++ b2 ++ b1 ++ b0

/-- Byte `k` of a host word, `v[8k+7 : 8k]`. -/
def wordByte (v : Word) (k : Nat) : Byte := v.extractLsb' (8 * k) 8

/-! ## Bit positions of an address (R141) -/

/-- `x` with bit `i` set to `b`. -/
def setBit (x : Byte) (i : Nat) (b : Bool) : Byte :=
  if b then x ||| 1#8 <<< i else x &&& ~~~(1#8 <<< i)

/-- `a.bit(pos)`: bit `(pos-1) mod 8` of byte `(pos-1) div 8`, for `pos` 1 to 64. -/
def romBit (a : RomAddr) (pos : Nat) : Bool :=
  (a[(pos - 1) / 8]?.getD 0).getLsbD ((pos - 1) % 8)

/-- `a` with `a.bit(pos) <- b`. -/
def setRomBit (a : RomAddr) (pos : Nat) (b : Bool) : RomAddr :=
  a.setIfInBounds ((pos - 1) / 8) (setBit (a[(pos - 1) / 8]?.getD 0) ((pos - 1) % 8) b)

/-! ## Family codes and the configuration byte -/

/-- The families with a configuration register: 0x10, 0x28, 0x22 (R85, R168, R173). -/
def hasConfigReg (family : Byte) : Bool := family == 0x10 || family == 0x28 || family == 0x22

/-- The resolutions `SETRES` supports: 9 to 12 (R63, R173). -/
def resolutionOk (bits : Nat) : Bool := decide (9 ≤ bits) && decide (bits ≤ 12)

/-- `(n - 9)[1:0]` (R173). -/
def resolutionCode (bits : Nat) : BitVec 2 := BitVec.ofNat 2 (bits - 9)

/-- `(cfg & 0x9F) | (code << 5)`: the configuration byte with its resolution field, bits 6:5, replaced (R173). -/
def mergeResolution (cfg : Byte) (code : BitVec 2) : Byte := cfg &&& 0x9F#8 ||| code.setWidth 8 <<< 5

/-- A row of the delay table applies to this device. -/
def rowApplies (family cfg : Byte) (r : DelayRow) : Bool := r.family == family && cfg &&& r.mask == r.bits

/-- `ConvDelay(all, family, cfg)` in milliseconds (R182), on the parameter's table. -/
def convDelay (t : DelayTable) (all : Bool) (family cfg : Byte) : BitVec 16 :=
  if all then t.broadcast
  else
    match t.rows.find? (rowApplies family cfg) with
    | some r => r.millis
    | none => t.other

end Sys2Proof.Machine
end

