-- ==== Sys2Proof/Machine/Ops.lean ====
section
/-! DEFINITION. The shared operations: pin primitives (spec/00_scope.md R9, spec/10_state.md R30 to R33), slot and byte
primitives (spec/40_transport.md R91 to R93, R100), the CRC-8 functions (spec/41_crc.md R110, R111), how a command starts and how
it aborts (spec/60_exceptions.md R219, R220), and selection (spec/30_encoding.md R76). -/

namespace Sys2Proof.Machine

/-! ## Pin primitives (R9, R30, R32, R33) -/

/-- What an event does at the pins (R9, R30, R32, R33), and its entry in the trace. A sample takes one of the samples to
come. -/
def Line.emit (l : Line) (e : Event) : Line :=
  let l := { l with trace := e :: l.trace }
  match e with
  | .driveLow => { l with dqOe := true, dqOut := false }
  | .release => { l with dqOe := false }
  | .driveHigh => { l with dqOe := true, dqOut := true }
  | .sample _ => { l with bus := l.bus.drop 1, drawn := l.drawn + (1 - l.bus.length) }
  | .pwrOn => { l with pwrOn := true }
  | .pwrOff => { l with pwrOn := false }
  | .critEnter => { l with crit := true }
  | .critExit => { l with crit := false }
  | .wait _ => l
  | .rst => { l with dqOe := false, dqOut := false, pwrOn := false, crit := false }

/-- A sequence of events, in order. -/
def Line.play (l : Line) (es : List Event) : Line := es.foldl Line.emit l

/-- The `k`-th sample to come, counting from 0 (R9, U13). -/
def Line.peek (l : Line) (k : Nat) : Bool := l.bus[k]?.getD (Config.freeSample (l.drawn + (k - l.bus.length)))

/-- `Sample()`: the level of the data line, which the environment supplies. -/
def Line.sample (l : Line) : Bool × Line := (l.peek 0, l.emit (.sample (l.peek 0)))

/-! ## Slot primitives -/

/-- `ResetSlot()` (R91): the presence bit is 1 iff the line was low at the one sample. -/
def Line.resetSlot (c : Config) (l : Line) : Bool × Line :=
  let v := (l.play [.driveLow, .wait c.tRstl, .release, .wait c.tPds]).sample
  (!v.1, v.2.play [.wait c.tRstt])

/-- `WriteSlot(b)` (R92). -/
def Line.writeSlot (c : Config) (b : Bool) (l : Line) : Line :=
  let low := l.play [.critEnter, .driveLow, .wait c.tLow]
  if b then low.play [.release, .critExit, .wait c.tW1h]
  else low.play [.wait c.tW0l, .release, .critExit, .wait c.tW0r]

/-- `ReadSlot()` (R93): the bit is the sample, uninverted. -/
def Line.readSlot (c : Config) (l : Line) : Bool × Line :=
  let v := (l.play [.critEnter, .driveLow, .wait c.tLow, .release, .wait c.tRds]).sample
  (v.1, v.2.play [.critExit, .wait c.tRdp])

/-! ## Byte primitives (R100) -/

/-- `WriteByte(v)`: least significant bit first. -/
def Line.writeByte (c : Config) (v : Byte) (l : Line) : Line :=
  (List.range 8).foldl (fun l i => l.writeSlot c (v.getLsbD i)) l

/-- Bytes written in list order. -/
def Line.writeBytes (c : Config) (vs : List Byte) (l : Line) : Line :=
  vs.foldl (fun l v => l.writeByte c v) l

/-- `n` read slots, the `i`-th giving bit `i`. -/
def Line.readBits (c : Config) : (n : Nat) → Line → BitVec n × Line
  | 0, l => (0, l)
  | n + 1, l =>
    let low := l.readBits c n
    let b := low.2.readSlot c
    (BitVec.cons b.1 low.1, b.2)

/-- `ReadByte()`: least significant bit first. -/
def Line.readByte (c : Config) (l : Line) : Byte × Line := l.readBits c 8

/-- `n` bytes read in index order. -/
def Line.readBytes (c : Config) : (n : Nat) → Line → Vector Byte n × Line
  | 0, l => (#v[], l)
  | n + 1, l =>
    let first := l.readBytes c n
    let b := first.2.readByte c
    (first.1.push b.1, b.2)

/-! ## CRC-8 -/

/-- One round of R110 for the data bit `d`: shift right, and feed back 0x8C when the data bit differs from bit 0. -/
def crcStep (c : Byte) (d : Bool) : Byte :=
  if d != c.getLsbD 0 then c >>> 1 ^^^ 0x8C else c >>> 1

/-- `crc8(c, b)` (R110): data bits least significant first. -/
def crc8 (c b : Byte) : Byte := (List.range 8).foldl (fun c i => crcStep c (b.getLsbD i)) c

/-- `checksum(bytes, seed)` (R111): first byte first. -/
def checksum (bytes : List Byte) (seed : Byte) : Byte := bytes.foldl crc8 seed

/-- The check of an address: the checksum of its bytes 0 to 6 (R116, R150). -/
def romChecksum (a : RomAddr) : Byte := checksum (a.toList.take 7) 0

/-- The check of a scratch-pad: the checksum of its bytes 0 to 7 (R117). -/
def ramChecksum (m : ScratchPad) : Byte := checksum (m.toList.take 8) 0

/-! ## The state seen from a command -/

/-- `COUNT`: the number of valid registry entries (R15). -/
def State.count (s : State) : Nat := s.reg.length

/-- The state after something that happens on the line only. -/
def State.onLine (f : Line → Line) (s : State) : State := { s with line := f s.line }

def State.writeSlot (b : Bool) (s : State) : State := s.onLine (Line.writeSlot s.cfg b)
def State.writeBytes (vs : List Byte) (s : State) : State := s.onLine (Line.writeBytes s.cfg vs)

/-! ## How a command starts and how it ends early -/

/-- The prologue of every legal command (R219): `STAT.ERR <- E_NONE`, and nothing else. It is also all there is of
"returning" from an error (R223): the next legal command clears `ERR`, `STICKY` keeps the record. -/
def prologue (s : State) : State := { s with stat.err := .none }

/-- Taking an error: `abort(E_x)` (R220), `STAT.ERR <- E_x; STICKY[x] <- 1`. There is no vector, no handler and no saved
state. -/
def raise (e : Err) (s : State) : State := { s with stat.err := e, sticky := s.sticky ||| e.stickyBit }

/-- Where a command stands: it goes on, or an abort has ended it. -/
inductive Flow where
  | go (s : State)
  | aborted (s : State)
  deriving DecidableEq, Repr

/-- The rest of a command: no step of it executes after an abort (R220). -/
def Flow.andThen (f : Flow) (rest : State → Flow) : Flow :=
  match f with
  | .go s => rest s
  | .aborted s => .aborted s

/-- The state a command leaves, whichever way it ended. -/
def Flow.state : Flow → State
  | .go s => s
  | .aborted s => s

/-- The steps of a `for` loop, in order. -/
def Flow.forEach (step : Nat → State → Flow) : List Nat → State → Flow
  | [], s => .go s
  | k :: ks, s => (step k s).andThen (Flow.forEach step ks)

/-- `abort(E_x)` in a command (R220). -/
def abort (e : Err) (s : State) : Flow := .aborted (raise e s)

/-- A command: the prologue, then its body, to its end or its abort. -/
def command (body : State → Flow) (s : State) : Host.Outcome State Fault Refusal := .next (body (prologue s)).state

/-! ## Selection (R76) -/

/-- `p <- ResetSlot(); STAT.PRES <- p`. -/
def busReset (s : State) : State :=
  let p := s.line.resetSlot s.cfg
  { s with line := p.2, stat.pres := p.1 }

/-- The head of every frame: a bus reset, and `abort(E_NOPRES)` if it finds no presence (R76, R224). -/
def resetOrAbort (s : State) : Flow :=
  let t := busReset s
  if t.stat.pres then .go t else abort .noPres t

/-- `MatchRom()` (R76, R77): 0x55, then `ADDR[0]` to `ADDR[7]`. -/
def matchRom (s : State) : Flow :=
  (resetOrAbort s).andThen fun t => .go (t.writeBytes (wireMatchRom :: t.addr.toList))

/-- `SkipRom()` (R76, R78): 0xCC. -/
def skipRom (s : State) : Flow :=
  (resetOrAbort s).andThen fun t => .go (t.writeBytes [wireSkipRom])

/-- `Select(all)` (R76). -/
def select (all : Bool) (s : State) : Flow := if all then skipRom s else matchRom s

/-! ## Hardware reset (R245, R247) -/

/-- `rst`: every piece of R10's state takes its reset value (R35), the host port returns to idle; nothing is sent on the
bus (R248). What lies outside the controller stays: the parameters, the samples and moves to come, what was recorded.
The trace gets the model's own mark. -/
def hardReset (s : State) : State :=
  { State.reset with
    cfg := s.cfg
    line := s.line.emit .rst
    host := s.host
    replies := s.replies }

end Sys2Proof.Machine
end

