-- ==== Sys2Proof/Machine/Scratchpad.lean ====
section
/-! DEFINITION. Scratch-pad transactions and power query: `RDSP`, `WRSP`, `PWRQ`, `SETRES` (spec/44_scratchpad.md). -/

namespace Sys2Proof.Machine

/-- The bytes `WriteScratch()` sends after the selection (R168): 0x4E, `RAM[2]`, `RAM[3]`, and `RAM[4]` for a family
with a configuration register. -/
def scratchFrame (s : State) : List Byte :=
  [wireWriteScratchpad, s.ram[2], s.ram[3]] ++ if hasConfigReg s.addr[0] then [s.ram[4]] else []

/-- `WriteScratch()` (R168). -/
def writeScratch (s : State) : Flow := (matchRom s).andThen fun s => .go (s.writeBytes (scratchFrame s))

/-- The read-power-supply query after a selection (R83): 0xB4 and one read slot. -/
def powerBit (s : State) : Bool × State :=
  let v := (s.writeBytes [wireReadPowerSupply]).line.readSlot s.cfg
  (v.1, { s with line := v.2 })

/-- `RDSP` (R166). -/
def execRdsp (s : State) : Host.Outcome State Fault Refusal :=
  command (fun s =>
    (matchRom s).andThen fun s =>
      let t := (s.writeBytes [wireReadScratchpad]).line.readBytes s.cfg 9
      .go { s with line := t.2, ram := t.1 }) s

/-- `WRSP tw` (R168): the image is updated before the bus is tried. -/
def execWrsp (tw : BitVec 16) (s : State) : Host.Outcome State Fault Refusal :=
  command (fun s =>
    writeScratch { s with ram := (s.ram.set 2 (tw.extractLsb' 8 8)).set 3 (tw.extractLsb' 0 8) }) s

/-- `PWRQ` and `PWRQ.ALL` (R170). -/
def execPwrq (all : Bool) (s : State) : Host.Outcome State Fault Refusal :=
  command (fun s =>
    (select all { s with stat.pwrExt := false }).andThen fun s =>
      let v := powerBit s
      .go { v.2 with stat.pwrExt := v.1 }) s

/-- `SETRES n` (R173): the checks come before any bus activity, the image is updated before the bus is tried. -/
def execSetres (bits : Nat) (s : State) : Host.Outcome State Fault Refusal :=
  command (fun s =>
    let s := { s with stat.resOk := false }
    if !hasConfigReg s.addr[0] then abort .unsup s
    else if !resolutionOk bits then abort .unsup s
    else
      (writeScratch { s with ram := s.ram.set 4 (mergeResolution s.ram[4] (resolutionCode bits)) }).andThen fun s =>
        .go { s with stat.resOk := true }) s

end Sys2Proof.Machine
end

