-- ==== Sys2Proof/Machine/ConvertSystem.lean ====
section
/-! DEFINITION. Conversion trigger and system commands: `CONVT`, `CLRREG`, `INIT`, `NOP` (spec/45_convert_system.md). -/

namespace Sys2Proof.Machine

/-- `PowerPhase(d, wait)` (R184). -/
def powerPhase (d : BitVec 16) (wait : Bool) (s : State) : State :=
  let ticks := 1000 * d.toNat
  if s.ctrl.parasite then
    if s.ctrl.pwrEn then { s with line := s.line.play [.pwrOn, .wait ticks, .pwrOff], delay := 0 }
    else { s with line := s.line.play [.driveHigh, .wait ticks, .release], delay := 0 }
  else if wait then { s with line := s.line.play [.wait ticks], delay := 0 }
  else { s with delay := d }

/-- `CONVT` and its modified forms (R185). -/
def execConvt (all wait : Bool) (s : State) : Host.Outcome State Fault Refusal :=
  command (fun s =>
    (select all { s with delay := 0 }).andThen fun s =>
      .go (powerPhase (convDelay s.cfg.conv all s.addr[0] s.ram[4]) wait (s.writeBytes [wireConvertTemperature]))) s

/-- `CLRREG` (R188). -/
def execClrreg (s : State) : Host.Outcome State Fault Refusal :=
  command (fun s => .go { s with reg := [] }) s

/-- `INIT` (R190). -/
def execInit (s : State) : Host.Outcome State Fault Refusal :=
  command (fun s =>
    (skipRom { s with reg := [], ram := .replicate 9 0, stat.pwrExt := false, ctrl.parasite := true }).andThen fun s =>
      let v := powerBit s
      .go { v.2 with stat.pwrExt := v.1, ctrl.parasite := !v.1 }) s

/-- `NOP` (R192): the prologue alone. -/
def execNop (s : State) : Host.Outcome State Fault Refusal := command .go s

end Sys2Proof.Machine
end

