-- ==== Sys2Proof/Machine/Crc.lean ====
section
/-! DEFINITION. The CRC-8 engine: `CRCI`, `CRCB`, `CRCD`, `CRCROM`, `CRCRAM` (spec/41_crc.md section 2). None touches a pin. -/

namespace Sys2Proof.Machine

/-- `CRCI s` (R113). -/
def execCrci (seed : Byte) (s : State) : Host.Outcome State Fault Refusal :=
  command (fun s => .go { s with crc := seed }) s

/-- `CRCB b` (R114). -/
def execCrcb (byte : Byte) (s : State) : Host.Outcome State Fault Refusal :=
  command (fun s => .go { s with crc := crc8 s.crc byte }) s

/-- `CRCD` (R115). -/
def execCrcd (s : State) : Host.Outcome State Fault Refusal :=
  command (fun s => .go { s with crc := crc8 s.crc s.data }) s

/-- `CRCROM` (R116). A mismatch is a result, not an error. -/
def execCrcrom (s : State) : Host.Outcome State Fault Refusal :=
  command (fun s => .go { s with crc := romChecksum s.addr, stat.crcOk := romChecksum s.addr == s.addr[7] }) s

/-- `CRCRAM` (R117). A mismatch is a result, not an error. -/
def execCrcram (s : State) : Host.Outcome State Fault Refusal :=
  command (fun s => .go { s with crc := ramChecksum s.ram, stat.crcOk := ramChecksum s.ram == s.ram[8] }) s

end Sys2Proof.Machine
end

