-- ==== Sys2Proof/Machine/RomSelect.lean ====
section
/-! DEFINITION. ROM selection and registry access: `MATCH`, `SKIP`, `RDROM`, `LDADDR` (spec/42_rom_select.md). -/

namespace Sys2Proof.Machine

/-- `MATCH` (R126). -/
def execMatch (s : State) : Host.Outcome State Fault Refusal := command matchRom s

/-- `SKIP` (R127). -/
def execSkip (s : State) : Host.Outcome State Fault Refusal := command skipRom s

/-- `RDROM` (R129). -/
def execRdrom (s : State) : Host.Outcome State Fault Refusal :=
  command (fun s =>
    (resetOrAbort s).andThen fun s =>
      let t := (s.writeBytes [wireReadRom]).line.readBytes s.cfg 8
      .go { s with line := t.2, addr := t.1 }) s

/-- `LDADDR i` (R133): an index at or above `COUNT` aborts before `ADDR` is written (R227). -/
def execLdaddr (index : Nat) (s : State) : Host.Outcome State Fault Refusal :=
  command (fun s =>
    match s.reg[index]? with
    | some a => .go { s with addr := a }
    | none => abort .idx s) s

end Sys2Proof.Machine
end

