-- ==== Sys2Proof/Machine/Search.lean ====
section
/-! DEFINITION. Device discovery: `FINDALL` (spec/43_search.md). -/

namespace Sys2Proof.Machine

/-- `DescentHead()` (R144). -/
def descentHead (s : State) : Flow :=
  (resetOrAbort s).andThen fun t => .go { t.writeBytes [wireSearchRom] with mark := 0 }

/-- `Decide(pos)` (R146): the branch at a discrepancy. In the retrace branch the mark is overwritten whenever the kept
bit is 0. -/
def decideBranch (pos : Nat) (s : State) : State :=
  if pos = s.lastd.toNat then { s with srom := setRomBit s.srom pos true }
  else if s.lastd.toNat < pos then { s with srom := setRomBit s.srom pos false, mark := BitVec.ofNat 7 pos }
  else if romBit s.srom pos then s
  else { s with mark := BitVec.ofNat 7 pos }

/-- What a triplet does with the pair (`a`, `b`) of the true and the complement bit, before its write slot (R145). -/
def resolvePair (pos : Nat) (a b : Bool) (s : State) : Flow :=
  if a && b then abort .coll s
  else if a != b then .go { s with srom := setRomBit s.srom pos a }
  else .go (decideBranch pos s)

/-- `Triplet(pos)` (R145). -/
def triplet (pos : Nat) (s : State) : Flow :=
  let a := s.line.readSlot s.cfg
  let b := a.2.readSlot s.cfg
  (resolvePair pos a.1 b.1 { s with line := b.2 }).andThen fun t => .go (t.writeSlot (romBit t.srom pos))

/-- `Validate()` (R150). -/
def validate (s : State) : Flow :=
  let t := { s with crc := romChecksum s.srom }
  if t.crc != s.srom[7] then abort .crc t else .go t

/-- `Register()` (R151). -/
def register (s : State) : Flow :=
  if s.srom ∈ s.reg then .go s
  else if s.reg.length = s.cfg.nDev then abort .regOvf s
  else .go { s with reg := s.reg ++ [s.srom] }

/-- One descent and what follows it: the body of the `repeat` loop of R152, up to step 7. -/
def descent (s : State) : Flow :=
  (descentHead s).andThen fun s =>
  (Flow.forEach triplet (List.range' 1 64) s).andThen fun s =>
  (validate s).andThen fun s =>
  (register s).andThen fun s =>
  .go { s with lastd := s.mark }

/-- One turn of the `repeat` loop (R152): an abort ends the command; `LASTD` = 0 ends it with `SRCH_DONE` = 1; else the
pass is still under way. -/
def passTurn (s : State) : State :=
  match descent s with
  | .aborted t => { t with busy := false }
  | .go t => if t.lastd = 0 then { t with stat.srchDone := true, busy := false } else { t with busy := true }

/-- At most `n` turns of the loop. -/
def runPass : Nat → State → State
  | 0, s => s
  | n + 1, s => if (passTurn s).busy then runPass n (passTurn s) else passTurn s

/-- The head of `FINDALL` (R152): `SRCH_DONE` and the search state cleared, and the pass begun. -/
def startPass (s : State) : State :=
  { s with stat.srchDone := false, srom := .replicate 8 0, lastd := 0, mark := 0, busy := true }

/-- A pass runs on for as many turns as any pass over a fixed set of devices can need: one for each registry entry
and one that finds the registry full (R154). One that needs more is continued by the next step, and may never end
(R156; DESIGN CHOICE, log entry 3). -/
def continuePass (s : State) : State := runPass (s.cfg.nDev + 1) s

/-- `FINDALL` (R152). -/
def execFindall (s : State) : Host.Outcome State Fault Refusal :=
  command (fun s => .go (continuePass (startPass s))) s

end Sys2Proof.Machine
end

