-- ==== Sys2Proof/Machine/Transport.lean ====
section
/-! DEFINITION. Bus transport: `RESET`, `WBIT`, `RBIT`, `WBYTE`, `RBYTE` (spec/40_transport.md section 2). -/

namespace Sys2Proof.Machine

/-- `RESET` (R95). Finding no presence is a result, not an error (R216). -/
def execReset (s : State) : Host.Outcome State Fault Refusal :=
  command (fun s => .go (busReset s)) s

/-- `WBIT b` (R96). -/
def execWbit (b : Bool) (s : State) : Host.Outcome State Fault Refusal :=
  command (fun s => .go (s.writeSlot b)) s

/-- `RBIT` (R97). -/
def execRbit (s : State) : Host.Outcome State Fault Refusal :=
  command (fun s =>
    let v := s.line.readSlot s.cfg
    .go { s with line := v.2, stat.bit := v.1 }) s

/-- `WBYTE v` (R98). -/
def execWbyte (v : Byte) (s : State) : Host.Outcome State Fault Refusal :=
  command (fun s => .go (s.writeBytes [v])) s

/-- `RBYTE` (R99). -/
def execRbyte (s : State) : Host.Outcome State Fault Refusal :=
  command (fun s =>
    let v := s.line.readByte s.cfg
    .go { s with line := v.2, data := v.1 }) s

end Sys2Proof.Machine
end

