-- ==== Sys2Proof/Machine/Dispatch.lean ====
section
/-! DEFINITION. One arm per command of spec/30_encoding.md R64. -/

namespace Sys2Proof.Machine

def exec (i : Instr) (s : State) : Host.Outcome State Fault Refusal :=
  match i with
  | .nop => Sys2Proof.Machine.execNop s
  | .reset => Sys2Proof.Machine.execReset s
  | .wbit b => Sys2Proof.Machine.execWbit b s
  | .rbit => Sys2Proof.Machine.execRbit s
  | .wbyte v => Sys2Proof.Machine.execWbyte v s
  | .rbyte => Sys2Proof.Machine.execRbyte s
  | .crci seed => Sys2Proof.Machine.execCrci seed s
  | .crcb byte => Sys2Proof.Machine.execCrcb byte s
  | .crcd => Sys2Proof.Machine.execCrcd s
  | .crcrom => Sys2Proof.Machine.execCrcrom s
  | .crcram => Sys2Proof.Machine.execCrcram s
  | .matchrom => Sys2Proof.Machine.execMatch s
  | .skip => Sys2Proof.Machine.execSkip s
  | .rdrom => Sys2Proof.Machine.execRdrom s
  | .findall => Sys2Proof.Machine.execFindall s
  | .ldaddr index => Sys2Proof.Machine.execLdaddr index s
  | .clrreg => Sys2Proof.Machine.execClrreg s
  | .rdsp => Sys2Proof.Machine.execRdsp s
  | .wrsp word => Sys2Proof.Machine.execWrsp word s
  | .pwrq all => Sys2Proof.Machine.execPwrq all s
  | .convt all wait => Sys2Proof.Machine.execConvt all wait s
  | .setres bits => Sys2Proof.Machine.execSetres bits s
  | .init => Sys2Proof.Machine.execInit s

end Sys2Proof.Machine
end

