-- ==== Sys2Proof/Machine/HostPort.lean ====
section
/-! DEFINITION. The host's register port (spec/20_memory.md section 1) and the output ports (spec/10_state.md R30 to R34). -/

namespace Sys2Proof.Machine

/-! ## Registers -/

/-- `RegRead(n)` (R41, R23): the register's content; `CMD` and the unmapped numbers read 0 (R47). -/
def regRead (n : RegNo) (s : State) : Word :=
  match n.toNat with
  | 0x01 => s.stat.word
  | 0x02 => stickyWord s.sticky
  | 0x03 => s.ctrl.word
  | 0x04 => s.data.setWidth 32
  | 0x05 => s.crc.setWidth 32
  | 0x06 => packWord s.addr[0] s.addr[1] s.addr[2] s.addr[3]
  | 0x07 => packWord s.addr[4] s.addr[5] s.addr[6] s.addr[7]
  | 0x08 => packWord s.ram[0] s.ram[1] s.ram[2] s.ram[3]
  | 0x09 => packWord s.ram[4] s.ram[5] s.ram[6] s.ram[7]
  | 0x0A => s.ram[8].setWidth 32
  | 0x0B => (BitVec.ofNat 8 s.count).setWidth 32
  | 0x0C => s.delay.setWidth 32
  | 0x0D => packWord s.srom[0] s.srom[1] s.srom[2] s.srom[3]
  | 0x0E => packWord s.srom[4] s.srom[5] s.srom[6] s.srom[7]
  | 0x0F => srchWord s.lastd s.mark
  | _ => 0

/-- Bytes `k` to `k+3` of an array written from a host word (R42). -/
def writeFour {n : Nat} (a : Vector Byte n) (k : Nat) (v : Word) : Vector Byte n :=
  (((a.setIfInBounds k (wordByte v 0)).setIfInBounds (k + 1) (wordByte v 1)).setIfInBounds (k + 2)
    (wordByte v 2)).setIfInBounds (k + 3) (wordByte v 3)

/-- `RegWrite(n, v)` for every register but `CMD` (R42): the defined bits are stored, the rest dropped; read-only
registers (R43) and unmapped numbers (R47) change nothing. -/
def regWrite (n : RegNo) (v : Word) (s : State) : State :=
  match n.toNat with
  | 0x02 => { s with sticky := stickyClear s.sticky v }
  | 0x03 => { s with ctrl := Ctrl.ofWord v }
  | 0x04 => { s with data := wordByte v 0 }
  | 0x05 => { s with crc := wordByte v 0 }
  | 0x06 => { s with addr := writeFour s.addr 0 v }
  | 0x07 => { s with addr := writeFour s.addr 4 v }
  | 0x08 => { s with ram := writeFour s.ram 0 v }
  | 0x09 => { s with ram := writeFour s.ram 4 v }
  | 0x0A => { s with ram := s.ram.set 8 (wordByte v 0) }
  | _ => s

/-- An illegal word written to `CMD` (R226): `STAT.ERR <- E_ILL; STICKY[5] <- 1`, without a prologue and without any
other effect. -/
def illegalWord (s : State) : State := raise .ill s

/-! ## Output ports -/

/-- The level each output port shows (R30, R32 to R34). `hReady` is low while the write of a command has not completed;
`hRdata` is the value the last read returned. -/
structure Ports where
  dqOe   : Bool
  dqOut  : Bool
  pwrOe  : Bool
  pwrOut : Bool
  crit   : Bool
  hReady : Bool
  hRdata : Option Word
  deriving DecidableEq, Repr

/-- The output ports: `pwr_oe = CTRL.PWR_EN`; `pwr_out` is `CTRL.PWR_POL` while `PWR_ON` = 1, else its complement. -/
def ports (s : State) : Ports where
  dqOe := s.line.dqOe
  dqOut := s.line.dqOut
  pwrOe := s.ctrl.pwrEn
  pwrOut := if s.line.pwrOn then s.ctrl.pwrPol else !s.ctrl.pwrPol
  crit := s.line.crit
  hReady := !s.busy
  hRdata := s.replies.head?

end Sys2Proof.Machine
end

