-- ==== Sys2Proof/Machine/Moves.lean ====
section
/-! DEFINITION. The outside world's moves: a write to `CMD` (spec/20_memory.md R44), every other register access, and `rst`
(spec/70_reset_and_hazards.md R245, R247). -/

namespace Sys2Proof.Machine

/-- `RegWrite(0x00, w)` (R44): the word is decoded and the command executed, or the word is rejected (R226). -/
def runWord (w : Word) (s : State) : Host.Outcome State Fault Refusal :=
  match decode w with
  | .ok i => exec i s
  | .error _ => .next (illegalWord s)

/-- The events between two states, oldest first. -/
def newEvents (s t : State) : List Event :=
  (t.line.trace.take (t.line.trace.length - s.line.trace.length)).reverse

/-- `rst` when the command that leads from `s` to `t` has made `k` events (R247): of the command only those events have
happened, and then every piece of state takes its reset value. -/
def cutAt (k : Nat) (s t : State) : State := hardReset (s.onLine fun l => l.play ((newEvents s t).take k))

/-- A word written to `CMD`, and `rst` asserted `k` events into the command. A search pass is followed as far as that
point, for each of its turns makes at least one event. -/
def commandCut (w : Word) (k : Nat) (s : State) : Host.Outcome State Fault Refusal :=
  match runWord w s with
  | .next t => .next (cutAt k s (if t.busy then runPass k t else t))
  | .fault f => .fault f
  | .refused r => .refused r

/-- One move of the outside world. A read changes nothing but what the host has been told (R41). -/
def hostMove (m : HostMove) (s : State) : Host.Outcome State Fault Refusal :=
  match m with
  | .read n => .next { s with replies := regRead n s :: s.replies }
  | .write n v => if n = 0 then runWord v s else .next (regWrite n v s)
  | .rst => .next (hardReset s)
  | .commandCut w k => commandCut w k s

/-- The next move, when the host port is free. With no move to come the controller is idle and nothing happens
(R245). -/
def nextMove (s : State) : Host.Outcome State Fault Refusal :=
  match s.host with
  | [] => .next s
  | m :: rest => hostMove m { s with host := rest }

/-- While a search pass is under way the host port is held (R45) and the pass runs on; only `rst` ends it from
outside (R156). -/
def whileBusy (s : State) : Host.Outcome State Fault Refusal :=
  match s.host with
  | .rst :: rest => .next (hardReset { s with host := rest })
  | _ => .next (continuePass s)

/-- `s` with this word as the host's next move: a write to `CMD`, the port free. -/
def placeWord (s : State) (nbits w : Nat) : State :=
  { s with busy := false, host := .write 0 (BitVec.ofNat 32 (w % 2 ^ nbits)) :: s.host }

end Sys2Proof.Machine
end

