-- ==== Sys2Proof/Machine/Step.lean ====
section
/-! DEFINITION. One step of the machine: one move of the outside world (spec/20_memory.md R53), or the continuation of a search
pass that has not ended. There is no program counter and nothing is fetched (spec/10_state.md R21): what stands in the place of
the next instruction is the next word the host writes to `CMD`. -/

namespace Sys2Proof.Machine

/-- One step. -/
def step (s : State) : Host.Outcome State Fault Refusal := if s.busy then whileBusy s else nextMove s

/-- `s` with the host about to write this command word to `CMD`. -/
def State.withFetchWord (s : State) (nbits w : Nat) : State := placeWord s nbits w

end Sys2Proof.Machine
end

