-- ==== Sys2Proof/Machine/Assembler.lean ====
section
/-! DEFINITION. The assembler syntax and the pseudo-commands (spec/30_encoding.md R66, R67) and the boot sequence
(spec/70_reset_and_hazards.md R250): what a host writes to have them. -/

namespace Sys2Proof.Machine

/-- `CMD <command>`: the write of its word to `CMD` (R66). -/
def cmd (i : Instr) : HostMove := .write 0x00 (encode i)

/-- `MNEMONIC[.ALL][.WAIT] [imm]` (R66), the immediate in decimal. -/
def asm : Instr → String
  | .nop => "NOP"
  | .reset => "RESET"
  | .wbit b => "WBIT " ++ toString b.toNat
  | .rbit => "RBIT"
  | .wbyte v => "WBYTE " ++ toString v.toNat
  | .rbyte => "RBYTE"
  | .crci seed => "CRCI " ++ toString seed.toNat
  | .crcb byte => "CRCB " ++ toString byte.toNat
  | .crcd => "CRCD"
  | .crcrom => "CRCROM"
  | .crcram => "CRCRAM"
  | .matchrom => "MATCH"
  | .skip => "SKIP"
  | .rdrom => "RDROM"
  | .findall => "FINDALL"
  | .ldaddr index => "LDADDR " ++ toString index
  | .clrreg => "CLRREG"
  | .rdsp => "RDSP"
  | .wrsp word => "WRSP " ++ toString word.toNat
  | .pwrq all => "PWRQ" ++ if all then ".ALL" else ""
  | .convt all wait => "CONVT" ++ (if all then ".ALL" else "") ++ if wait then ".WAIT" else ""
  | .setres bits => "SETRES " ++ toString bits
  | .init => "INIT"

/-- `CHECKSUM b0, ..., b(n-1)` (R67); the result is read from `CRC`. -/
def pseudoChecksum (bytes : List Byte) : List HostMove :=
  cmd (.crci 0) :: bytes.map (fun b => cmd (.crcb b)) ++ [.read 0x05]

/-- `SETADDR a` (R67). -/
def pseudoSetAddr (a : RomAddr) : List HostMove :=
  [.write 0x06 (packWord a[0] a[1] a[2] a[3]), .write 0x07 (packWord a[4] a[5] a[6] a[7])]

/-- `GETADDR i` (R67). -/
def pseudoGetAddr (index : Nat) : List HostMove := [cmd (.ldaddr index), .read 0x06, .read 0x07]

/-- `SELECT` and `SELECT.ALL` (R67). -/
def pseudoSelect (all : Bool) : List HostMove := if all then [cmd .skip] else [cmd .matchrom]

/-- `RDTEMP` (R67); the host decodes `RAM_0` itself. -/
def pseudoRdTemp : List HostMove := [cmd .rdsp, cmd .crcram, .read 0x01, .read 0x08]

/-- The boot sequence (R250). `powerLine`: the active level of the power-control line, if one is fitted. -/
def bootMoves (powerLine : Option Bool) : List HostMove :=
  (match powerLine with
    | some level => [.write 0x03 (Ctrl.word ⟨false, true, level⟩)]
    | none => []) ++
  [cmd .init, .read 0x01, cmd .findall, .read 0x0B]

end Sys2Proof.Machine
end

