-- ==== Sys2Proof/Safety.lean ====
section
/-! DEFINITION. The terms claims use: the invariants of spec/10_state.md R36, what the host is expected to do
(spec/93_implementation_defined.md), the shorthand of spec/95_test_vectors.md section 0 for what a frame puts on the wire, ticks,
and a fixed set of devices answering a search (spec/43_search.md R142, R154). -/

namespace Sys2Proof.Machine

/-! ## Invariants -/

/-- A valid ROM address: its byte 7 is the CRC-8 of its bytes 0 to 6 (R11). -/
abbrev ValidRom (a : RomAddr) : Prop := romChecksum a = a[7]

/-- What holds between two descents of a pass, before a step continues it (R152, log entry 3): no error yet, the pass
not at its end, and `LASTD` the mark of the descent before (step 7), which was not 0. -/
structure PassClean (s : State) : Prop where
  noError : s.stat.err = .none
  notDone : s.stat.srchDone = false
  markKept : s.mark = s.lastd
  moreToFind : s.lastd ≠ 0

/-- The invariants of R36, (a) to (g), and that of a pass under way. (g) speaks of the delays of R182, so it is an
invariant where the parameter has that value. -/
structure Inv (s : State) : Prop where
  /-- (a) -/
  count_le : s.count ≤ s.cfg.nDev
  /-- (b) -/
  distinct : s.reg.Nodup
  /-- (c) -/
  checked : ∀ a ∈ s.reg, ValidRom a
  /-- (d) -/
  lastd_le : s.lastd.toNat ≤ 64
  /-- (d) -/
  mark_le : s.mark.toNat ≤ 64
  /-- (e) -/
  released : s.line.dqOe = false
  /-- (e) -/
  unpowered : s.line.pwrOn = false
  /-- (e) -/
  notCritical : s.line.crit = false
  /-- (f) -/
  err_le : s.stat.err.code.toNat ≤ 7
  /-- (g) -/
  delay_mem : s.cfg.conv = .spec → s.delay ∈ [0, 94, 150, 188, 375, 750]
  /-- R152 -/
  passClean : s.busy = true → PassClean s

/-! ## One step of a command -/

/-- The step continues a pass that is under way (log entry 3): `rst` is not the next move. -/
def PassGoesOn (s t : State) : Prop := s.busy = true ∧ (∀ rest, s.host ≠ .rst :: rest) ∧ step s = .next t

/-- `t` follows `s` by the command `i`: by its execution or, for `FINDALL`, by a step that continues its pass. -/
def Advances (i : Instr) (s t : State) : Prop := exec i s = .next t ∨ (i = .findall ∧ PassGoesOn s t)

/-! ## What the host is expected to do

The model gives an effect to everything the hardware does, also to what a claim about the software the hardware stands
for should not rest on. These predicates name those cases, so that a claim can exclude them. -/

/-- The move uses a mapped register (R47, U9), and writes to `CMD` a legal word only (R226, U10). -/
def HostMove.expected : HostMove → Bool
  | .read n => decide (n.toNat ≤ 0x0F)
  | .write n v => decide (n.toNat ≤ 0x0F) && (n != 0 || (decode v).toBool)
  | .rst => true
  | .commandCut w _ => (decode w).toBool

/-- The last command did not end in one of the errors that the source calls undefined or does not have: `E_IDX` (U1),
`E_REGOVF` (U16). -/
def State.withinSource (s : State) : Bool := s.stat.err != .idx && s.stat.err != .regOvf

/-! ## The wire -/

/-- The ticks that these events take (R7). -/
def ticks (es : List Event) : Nat := (es.map fun e => match e with | .wait n => n | _ => 0).sum

/-- `RST(v)`. -/
def wireReset (c : Config) (v : Bool) : List Event :=
  [.driveLow, .wait c.tRstl, .release, .wait c.tPds, .sample v, .wait c.tRstt]

/-- `w0`, `w1`. -/
def wireWrite (c : Config) : Bool → List Event
  | true => [.critEnter, .driveLow, .wait c.tLow, .release, .critExit, .wait c.tW1h]
  | false => [.critEnter, .driveLow, .wait c.tLow, .wait c.tW0l, .release, .critExit, .wait c.tW0r]

/-- `r0`, `r1`. -/
def wireRead (c : Config) (v : Bool) : List Event :=
  [.critEnter, .driveLow, .wait c.tLow, .release, .wait c.tRds, .sample v, .critExit, .wait c.tRdp]

/-- `W:xx ...`: these bytes written, each least significant bit first. -/
def wireBytesOut (c : Config) (vs : List Byte) : List Event :=
  vs.flatMap fun v => (List.range 8).flatMap fun i => wireWrite c (v.getLsbD i)

/-- `R:xx ...`: these bytes read, each least significant bit first. -/
def wireBytesIn (c : Config) (vs : List Byte) : List Event :=
  vs.flatMap fun v => (List.range 8).flatMap fun i => wireRead c (v.getLsbD i)

/-- The head of a frame that selects one device (R77): `RST(0)`, 0x55, the 8 address bytes. -/
def wireMatchFrame (c : Config) (a : RomAddr) : List Event :=
  wireReset c false ++ wireBytesOut c (0x55 :: a.toList)

/-- The head of a frame that selects all devices (R78): `RST(0)`, 0xCC. -/
def wireSkipFrame (c : Config) : List Event := wireReset c false ++ wireBytesOut c [0xCC]

/-- The head of a device-command frame (R76). -/
def wireSelectFrame (c : Config) (a : RomAddr) (all : Bool) : List Event :=
  if all then wireSkipFrame c else wireMatchFrame c a

/-- What `CONVT` does after its command byte, for a delay of `d` milliseconds (R184). -/
def wirePower (ctrl : Ctrl) (d : BitVec 16) (wait : Bool) : List Event :=
  if ctrl.parasite then
    if ctrl.pwrEn then [.pwrOn, .wait (1000 * d.toNat), .pwrOff] else [.driveHigh, .wait (1000 * d.toNat), .release]
  else if wait then [.wait (1000 * d.toNat)] else []

/-- `s` after a bus reset that found no presence and the abort on it (R220, R224). -/
def afterNoPresence (s : State) : State :=
  { s with
    stat := { s.stat with err := .noPres, pres := false }
    sticky := s.sticky ||| 0x01
    line := s.line.play (wireReset s.cfg true) }

/-- `s` after a command that ran to its end, found presence, and put these events on the wire. -/
def afterFrame (es : List Event) (s : State) : State :=
  { s with stat := { s.stat with err := .none, pres := true }, line := s.line.play es }

/-- Every `CritEnter` is followed by a `CritExit` before the next one, and the other way round (R94). -/
def critPaired : Bool → List Event → Bool
  | inside, [] => !inside
  | inside, .critEnter :: es => !inside && critPaired true es
  | inside, .critExit :: es => inside && critPaired false es
  | inside, _ :: es => critPaired inside es

/-- The samples these events took, in order. -/
def samplesOf (es : List Event) : List Bool := es.filterMap fun e => match e with | .sample v => some v | _ => none

/-- The byte that the samples to come make, the `k`-th of them being its bit 0 (R48, R100). -/
def Line.peekByte (l : Line) (k : Nat) : Byte := BitVec.ofFnLE fun i => l.peek (k + i)

/-- The bytes that the samples to come make, from the `k`-th on. -/
def Line.peekBytes (l : Line) (k n : Nat) : Vector Byte n := Vector.ofFn fun i => l.peekByte (k + 8 * i)

/-- The number of 0 bits of a byte (R101). -/
def zeroBits (v : Byte) : Nat := ((List.range 8).filter fun i => !v.getLsbD i).length

/-! ## Which command writes what (the column "Written by" of R10, R18) -/

def writesAddr : Instr → Bool
  | .ldaddr _ | .rdrom => true
  | _ => false

def writesRam : Instr → Bool
  | .rdsp | .wrsp _ | .setres _ | .init => true
  | _ => false

def writesCrc : Instr → Bool
  | .crci _ | .crcb _ | .crcd | .crcrom | .crcram | .findall => true
  | _ => false

def writesReg : Instr → Bool
  | .findall | .clrreg | .init => true
  | _ => false

def writesPres : Instr → Bool
  | .reset | .matchrom | .skip | .rdrom | .findall | .rdsp | .wrsp _ | .pwrq _ | .convt _ _ | .setres _ | .init => true
  | _ => false

def writesPwrExt : Instr → Bool
  | .pwrq _ | .init => true
  | _ => false

def writesCrcOk : Instr → Bool
  | .crcrom | .crcram => true
  | _ => false

def isConvt : Instr → Bool
  | .convt _ _ => true
  | _ => false

def isSetres : Instr → Bool
  | .setres _ => true
  | _ => false

/-- The commands that touch no pin (R46). -/
def touchesNoPin : Instr → Bool
  | .nop | .crci _ | .crcb _ | .crcd | .crcrom | .crcram | .ldaddr _ | .clrreg => true
  | _ => false

/-- The commands that can raise an error (the column "Raised by" of R215); `E_ILL` belongs to the decoder. -/
def canRaise : Err → Instr → Bool
  | .none, _ => true
  | .noPres, i => writesPres i && i != .reset
  | .coll, i => i == .findall
  | .crc, i => i == .findall
  | .unsup, i => isSetres i
  | .ill, _ => false
  | .idx, .ldaddr _ => true
  | .idx, _ => false
  | .regOvf, i => i == .findall

/-! ## A fixed set of devices in a search -/

/-- `a` comes before `b` in the order of the wire: 0 at the first position where they differ (R154). -/
def wireBefore (a b : RomAddr) : Prop :=
  ∃ p, 1 ≤ p ∧ p ≤ 64 ∧ (∀ q, 1 ≤ q → q < p → romBit a q = romBit b q) ∧ romBit a p = false ∧ romBit b p = true

/-- The devices that still take part at position `pos` of the descent to `a`: those that have the bits of `a` at every
earlier position (R142). -/
def takingPart (ds : List RomAddr) (a : RomAddr) (pos : Nat) : List RomAddr :=
  ds.filter fun d => (List.range' 1 (pos - 1)).all fun q => romBit d q == romBit a q

/-- What the line carries in the two read slots of position `pos`: a 0 from any device wins (R142). -/
def pairAt (ds : List RomAddr) (a : RomAddr) (pos : Nat) : Bool × Bool :=
  ((takingPart ds a pos).all fun d => romBit d pos, (takingPart ds a pos).all fun d => !romBit d pos)

/-- The samples of a descent to `a` among the devices `ds`: presence, then a pair for each position. -/
def descentSamples (ds : List RomAddr) (a : RomAddr) : List Bool :=
  false :: (List.range' 1 64).flatMap fun pos => [(pairAt ds a pos).1, (pairAt ds a pos).2]

/-- The events of a descent to `a` among the devices `ds` (R80): the bits written are those of `a`. -/
def wireDescent (c : Config) (ds : List RomAddr) (a : RomAddr) : List Event :=
  wireReset c false ++ wireBytesOut c [0xF0] ++
    (List.range' 1 64).flatMap fun pos =>
      wireRead c (pairAt ds a pos).1 ++ wireRead c (pairAt ds a pos).2 ++ wireWrite c (romBit a pos)

end Sys2Proof.Machine
end

