-- ==== Sys2Proof/Certificates/Slice0/Obligations.lean ====
section
/-! DEFINITION. The statements for the provers. Flag `k` of `STICKY`, 1 to 7, is bit `k - 1` of the field `sticky`, so the
flags 1 to 7 are 0x01, 0x02, 0x04, 0x08, 0x10, 0x20, 0x40 of it; `RegisterMapLayout` says where the host reads them. -/

open Sys2Proof Sys2Proof.Machine Host

/-! ## Encoding -/

/-- R66: the words of its example commands decode to those commands. -/
def Obligations.ExampleWordsDecode : Prop :=
  decode 0x00000001 = .ok .reset ∧ decode 0x00010002 = .ok (.wbit true) ∧ decode 0x00CC0004 = .ok (.wbyte 0xCC) ∧
  decode 0x4B460031 = .ok (.wrsp 0x4B46) ∧ decode 0x00000132 = .ok (.pwrq true) ∧
  decode 0x00000333 = .ok (.convt true true) ∧ decode 0x00000233 = .ok (.convt false true) ∧
  decode 0x000C0034 = .ok (.setres 12) ∧ decode 0x00010024 = .ok (.ldaddr 1)

/-- R61: a word is legal iff its `OP` is assigned, `RSV` is 0, `ALL` is 0 unless the operation is `PWRQ` or `CONVT`,
`WAIT` is 0 unless it is `CONVT`, and the bits of `IMM` the operation does not use are 0. -/
def Obligations.LegalWordsAreTheFiveConditions : Prop :=
  ∀ w : Word, (∃ i, decode w = .ok i) ↔
    w.extractLsb' 0 8 ∈ ([0x00, 0x01, 0x02, 0x03, 0x04, 0x05, 0x10, 0x11, 0x12, 0x13, 0x14, 0x20, 0x21, 0x22, 0x23,
      0x24, 0x25, 0x30, 0x31, 0x32, 0x33, 0x34, 0x3F] : List Byte) ∧
    w.extractLsb' 10 6 = 0 ∧
    (w.getLsbD 8 = true → w.extractLsb' 0 8 = 0x32 ∨ w.extractLsb' 0 8 = 0x33) ∧
    (w.getLsbD 9 = true → w.extractLsb' 0 8 = 0x33) ∧
    (w.extractLsb' 0 8 = 0x31 ∨
      (w.extractLsb' 0 8 ∈ ([0x04, 0x10, 0x11, 0x24, 0x34] : List Byte) ∧ w.extractLsb' 24 8 = 0) ∨
      (w.extractLsb' 0 8 = 0x02 ∧ w.extractLsb' 17 15 = 0) ∨
      w.extractLsb' 16 16 = 0)

/-- R61 "Equivalently": a word is a command of a row of the opcode table iff it fits the row's mask and match; and no
word fits two rows (R65). -/
def Obligations.DecodeFollowsOpcodeTable : Prop :=
  ∀ (w : Word) (r : TableRow), r ∈ opcodeTable →
    ((∃ i, decode w = .ok i ∧ i.tableRow = r) ↔ r.Fits w) ∧
    ∀ r' : TableRow, r' ∈ opcodeTable → r.Fits w → r'.Fits w → r = r'

/-- Decoding the word of a well-formed command gives the command back, whatever its operands. -/
def Obligations.DecodeOfEncode : Prop := ∀ i : Instr, i.wf = true → decode (encode i) = .ok i

/-- A word that decodes is the word of the command it decodes to, and that command is well-formed: each command has
one word. -/
def Obligations.EncodeOfDecode : Prop :=
  ∀ (w : Word) (i : Instr), decode w = .ok i → encode i = w ∧ i.wf = true

/-! ## Steps -/

/-- R44: when the host's next move writes to `CMD` a word that decodes to a command, the step is that command's
execution, the move being taken. -/
def Obligations.StepRunsDecodedCommand : Prop :=
  ∀ (s : State) (w : Word) (i : Instr) (rest : List HostMove),
    s.busy = false → s.host = .write 0x00 w :: rest → decode w = .ok i → step s = exec i { s with host := rest }

/-- R226: an illegal word sets `ERR` to 5 and flag 5 of `STICKY`, and changes nothing else. -/
def Obligations.IllegalWordReportsEIll : Prop :=
  ∀ (s : State) (w : Word) (r : Reject) (rest : List HostMove),
    s.busy = false → s.host = .write 0x00 w :: rest → decode w = .error r →
    step s = .next { s with host := rest, stat.err := .ill, sticky := s.sticky ||| 0x10 } ∧ Err.ill.code = 5

/-- The model's representation of a blocked host (log entry 3; R45): while a pass is under way no move of the host but
`rst` is taken, and nothing is answered to the host. -/
def Obligations.RunningPassHoldsHostPort : Prop :=
  ∀ s : State, s.busy = true → (∀ rest, s.host ≠ .rst :: rest) →
    ∃ t, step s = .next t ∧ t.host = s.host ∧ t.replies = s.replies

/-- With no move to come, nothing happens (R245: "the controller does nothing until the host writes `CMD`"). -/
def Obligations.IdleControllerDoesNothing : Prop :=
  ∀ s : State, s.busy = false → s.host = [] → step s = .next s

/-! ## Reset -/

/-- R35: the values after hardware reset. -/
def Obligations.ResetValues : Prop :=
  let s := State.reset
  s.addr = #v[0, 0, 0, 0, 0, 0, 0, 0] ∧ s.ram = #v[0, 0, 0, 0, 0, 0, 0, 0, 0] ∧ s.crc = 0 ∧ s.data = 0 ∧
  s.srom = #v[0, 0, 0, 0, 0, 0, 0, 0] ∧ s.count = 0 ∧ s.lastd = 0 ∧ s.mark = 0 ∧ s.delay = 0 ∧ s.stat.word = 0 ∧
  s.sticky = 0 ∧ s.ctrl.word = 0 ∧ s.line.dqOe = false ∧ s.line.dqOut = false ∧ s.line.pwrOn = false ∧
  s.line.crit = false

/-- R245, R248: `rst`, also while a pass is under way, takes every register to its reset value and every pin to its
reset level, adds no event but the model's mark, and takes no sample. -/
def Obligations.RstGivesResetState : Prop :=
  ∀ (s : State) (rest : List HostMove), s.host = .rst :: rest →
    step s = .next { State.reset with
      cfg := s.cfg, host := rest, replies := s.replies,
      line := { Line.reset with trace := .rst :: s.line.trace, bus := s.line.bus, drawn := s.line.drawn } }

/-- R247: `rst` asserted when a command has made `k` events. If the command alone would have led from `s` to `u`, whose
line is that of `s` after the events `es`, then of the command only the first `k` events have happened, and every
register has its reset value. -/
def Obligations.RstCutsCommandShort : Prop :=
  ∀ (s u : State) (w : Word) (k : Nat) (es : List Event) (rest : List HostMove),
    s.busy = false → s.host = .commandCut w k :: rest → runWord w { s with host := rest } = .next u →
    u.busy = false → u.line = s.line.play es →
    step s = .next { State.reset with
      cfg := s.cfg, host := rest, replies := s.replies, line := (s.line.play (es.take k)).emit .rst }

/-! ## The host's registers -/

/-- R41: a read answers the register's content and changes nothing, and two reads in a row answer the same. -/
def Obligations.RegisterReadHasNoEffect : Prop :=
  ∀ (s : State) (n : RegNo) (rest : List HostMove), s.busy = false → s.host = .read n :: rest →
    step s = .next { s with host := rest, replies := regRead n s :: s.replies } ∧
    regRead n { s with host := rest, replies := regRead n s :: s.replies } = regRead n s ∧ regRead 0x00 s = 0

/-- R18: the fields of `STAT` in the word the host reads. -/
def Obligations.StatWordLayout : Prop :=
  ∀ s : State,
    (regRead 0x01 s).getLsbD 0 = s.stat.pres ∧ (regRead 0x01 s).getLsbD 1 = s.stat.bit ∧
    (regRead 0x01 s).getLsbD 2 = s.stat.pwrExt ∧ (regRead 0x01 s).getLsbD 3 = s.stat.crcOk ∧
    (regRead 0x01 s).getLsbD 4 = s.stat.resOk ∧ (regRead 0x01 s).getLsbD 5 = s.stat.srchDone ∧
    (regRead 0x01 s).extractLsb' 6 2 = 0 ∧ (regRead 0x01 s).extractLsb' 8 4 = s.stat.err.code ∧
    (regRead 0x01 s).extractLsb' 12 20 = 0

/-- R23: what the other registers read, byte `k` of an array in bits `8k+7 : 8k`. -/
def Obligations.RegisterMapLayout : Prop :=
  ∀ s : State,
    (∀ k (h : k < 4), (regRead 0x06 s).extractLsb' (8 * k) 8 = s.addr[k]) ∧
    (∀ k (h : k < 4), (regRead 0x07 s).extractLsb' (8 * k) 8 = s.addr[4 + k]) ∧
    (∀ k (h : k < 4), (regRead 0x08 s).extractLsb' (8 * k) 8 = s.ram[k]) ∧
    (∀ k (h : k < 4), (regRead 0x09 s).extractLsb' (8 * k) 8 = s.ram[4 + k]) ∧
    (∀ k (h : k < 4), (regRead 0x0D s).extractLsb' (8 * k) 8 = s.srom[k]) ∧
    (∀ k (h : k < 4), (regRead 0x0E s).extractLsb' (8 * k) 8 = s.srom[4 + k]) ∧
    (regRead 0x0A s).toNat = s.ram[8].toNat ∧ (regRead 0x04 s).toNat = s.data.toNat ∧
    (regRead 0x05 s).toNat = s.crc.toNat ∧ (regRead 0x0C s).toNat = s.delay.toNat ∧
    (s.count ≤ 255 → (regRead 0x0B s).toNat = s.count) ∧
    (regRead 0x0F s).toNat = s.lastd.toNat + 256 * s.mark.toNat ∧
    (regRead 0x03 s).toNat = s.ctrl.parasite.toNat + 2 * s.ctrl.pwrEn.toNat + 4 * s.ctrl.pwrPol.toNat ∧
    (∀ k, 1 ≤ k → k ≤ 7 → (regRead 0x02 s).getLsbD k = s.stickyFlag k) ∧
    (regRead 0x02 s).extractLsb' 1 7 = s.sticky ∧ (regRead 0x02 s).getLsbD 0 = false ∧
    (regRead 0x02 s).extractLsb' 8 24 = 0

/-- R42: the effect of a write to each read-write register, the whole state after it. -/
def Obligations.RegisterWriteEffects : Prop :=
  ∀ (s : State) (v : Word) (rest : List HostMove), s.busy = false →
    (s.host = .write 0x03 v :: rest → step s = .next { s with
      host := rest, ctrl := ⟨v.getLsbD 0, v.getLsbD 1, v.getLsbD 2⟩ }) ∧
    (s.host = .write 0x04 v :: rest → step s = .next { s with host := rest, data := v.extractLsb' 0 8 }) ∧
    (s.host = .write 0x05 v :: rest → step s = .next { s with host := rest, crc := v.extractLsb' 0 8 }) ∧
    (s.host = .write 0x06 v :: rest → step s = .next { s with
      host := rest, addr := #v[v.extractLsb' 0 8, v.extractLsb' 8 8, v.extractLsb' 16 8, v.extractLsb' 24 8,
        s.addr[4], s.addr[5], s.addr[6], s.addr[7]] }) ∧
    (s.host = .write 0x07 v :: rest → step s = .next { s with
      host := rest, addr := #v[s.addr[0], s.addr[1], s.addr[2], s.addr[3],
        v.extractLsb' 0 8, v.extractLsb' 8 8, v.extractLsb' 16 8, v.extractLsb' 24 8] }) ∧
    (s.host = .write 0x08 v :: rest → step s = .next { s with
      host := rest, ram := #v[v.extractLsb' 0 8, v.extractLsb' 8 8, v.extractLsb' 16 8, v.extractLsb' 24 8,
        s.ram[4], s.ram[5], s.ram[6], s.ram[7], s.ram[8]] }) ∧
    (s.host = .write 0x09 v :: rest → step s = .next { s with
      host := rest, ram := #v[s.ram[0], s.ram[1], s.ram[2], s.ram[3],
        v.extractLsb' 0 8, v.extractLsb' 8 8, v.extractLsb' 16 8, v.extractLsb' 24 8, s.ram[8]] }) ∧
    (s.host = .write 0x0A v :: rest → step s = .next { s with
      host := rest, ram := #v[s.ram[0], s.ram[1], s.ram[2], s.ram[3], s.ram[4], s.ram[5], s.ram[6], s.ram[7],
        v.extractLsb' 0 8] }) ∧
    (s.host = .write 0x02 v :: rest → ∃ st : BitVec 7, step s = .next { s with host := rest, sticky := st } ∧
      ∀ k, 1 ≤ k → k ≤ 7 → { s with sticky := st }.stickyFlag k = (s.stickyFlag k && !v.getLsbD k))

/-- R43, R47: a write to a read-only register or to an unmapped number changes nothing, and an unmapped number
reads 0. -/
def Obligations.ReadOnlyAndUnmappedWritesIgnored : Prop :=
  ∀ (s : State) (n : RegNo) (v : Word) (rest : List HostMove), s.busy = false → s.host = .write n v :: rest →
    (n.toNat ∈ [0x01, 0x0B, 0x0C, 0x0D, 0x0E, 0x0F] → step s = .next { s with host := rest }) ∧
    (0x10 ≤ n.toNat → step s = .next { s with host := rest } ∧ regRead n s = 0)

/-- R9, R30, R32, R33: what each event does to the pins, with its entry in the trace; a sample takes the next of the
samples to come; a sequence of events does what its events do in turn; and what the output ports show of it (R34). -/
def Obligations.EventsSetPinsAndPortsShowThem : Prop :=
  (∀ (l : Line) (n : Nat),
    l.emit .driveLow = { l with trace := .driveLow :: l.trace, dqOe := true, dqOut := false } ∧
    l.emit .release = { l with trace := .release :: l.trace, dqOe := false } ∧
    l.emit .driveHigh = { l with trace := .driveHigh :: l.trace, dqOe := true, dqOut := true } ∧
    l.emit .pwrOn = { l with trace := .pwrOn :: l.trace, pwrOn := true } ∧
    l.emit .pwrOff = { l with trace := .pwrOff :: l.trace, pwrOn := false } ∧
    l.emit .critEnter = { l with trace := .critEnter :: l.trace, crit := true } ∧
    l.emit .critExit = { l with trace := .critExit :: l.trace, crit := false } ∧
    l.emit (.wait n) = { l with trace := .wait n :: l.trace }) ∧
  (∀ (l : Line) (v : Bool), let m := l.emit (.sample v)
    m.dqOe = l.dqOe ∧ m.dqOut = l.dqOut ∧ m.pwrOn = l.pwrOn ∧ m.crit = l.crit ∧ m.trace = .sample v :: l.trace ∧
    ∀ k, m.peek k = l.peek (k + 1)) ∧
  (∀ (l : Line) (e : Event) (es : List Event), l.play [] = l ∧ l.play (e :: es) = (l.emit e).play es) ∧
  ∀ s : State,
    (ports s).dqOe = s.line.dqOe ∧ (ports s).dqOut = s.line.dqOut ∧ (ports s).crit = s.line.crit ∧
    (ports s).pwrOe = s.ctrl.pwrEn ∧ (s.line.pwrOn = true → (ports s).pwrOut = s.ctrl.pwrPol) ∧
    (s.line.pwrOn = false → (ports s).pwrOut = !s.ctrl.pwrPol) ∧ (ports s).hReady = !s.busy ∧
    (ports s).hRdata = s.replies.head?

/-! ## Commands: the whole next state of each -/

/-- R192, R188: `NOP` runs its prologue only; `CLRREG` empties the registry besides. -/
def Obligations.NopAndClrregTouchNoPin : Prop :=
  decode 0x00000000 = .ok .nop ∧ decode 0x00000025 = .ok .clrreg ∧
  ∀ s : State, exec .nop s = .next { s with stat.err := .none } ∧
    exec .clrreg s = .next { s with stat.err := .none, reg := [] }

/-- R95. -/
def Obligations.ResetReportsPresence : Prop :=
  decode 0x00000001 = .ok .reset ∧ ∀ s : State, exec .reset s = .next { s with
    stat := { s.stat with err := .none, pres := !s.line.peek 0 }
    line := s.line.play (wireReset s.cfg (s.line.peek 0)) }

/-- R96. -/
def Obligations.WbitWritesOneSlot : Prop :=
  ∀ (s : State) (b : Bool), decode (0x00000002#32 ||| (BitVec.ofBool b).setWidth 32 <<< 16) = .ok (.wbit b) ∧
    exec (.wbit b) s = .next { s with
    stat.err := .none, line := s.line.play (wireWrite s.cfg b) }

/-- R97. -/
def Obligations.RbitReadsOneSlot : Prop :=
  decode 0x00000003 = .ok .rbit ∧ ∀ s : State, exec .rbit s = .next { s with
    stat := { s.stat with err := .none, bit := s.line.peek 0 }
    line := s.line.play (wireRead s.cfg (s.line.peek 0)) }

/-- R98: eight write slots, least significant bit first. -/
def Obligations.WbyteWritesEightSlots : Prop :=
  ∀ (s : State) (v : Byte), decode (0x00000004#32 ||| v.setWidth 32 <<< 16) = .ok (.wbyte v) ∧
    exec (.wbyte v) s = .next { s with
    stat.err := .none, line := s.line.play (wireBytesOut s.cfg [v]) }

/-- R99: eight read slots, least significant bit first, into `DATA`. -/
def Obligations.RbyteReadsEightSlots : Prop :=
  decode 0x00000005 = .ok .rbyte ∧ ∀ s : State, exec .rbyte s = .next { s with
    stat.err := .none
    data := s.line.peekByte 0
    line := s.line.play (wireBytesIn s.cfg [s.line.peekByte 0]) }

/-- R113 to R115. -/
def Obligations.CrcCommandsUpdateAccumulator : Prop :=
  ∀ (s : State) (x : Byte),
    decode (0x00000010#32 ||| x.setWidth 32 <<< 16) = .ok (.crci x) ∧
    decode (0x00000011#32 ||| x.setWidth 32 <<< 16) = .ok (.crcb x) ∧ decode 0x00000012 = .ok .crcd ∧
    exec (.crci x) s = .next { s with stat.err := .none, crc := x } ∧
    exec (.crcb x) s = .next { s with stat.err := .none, crc := crc8 s.crc x } ∧
    exec .crcd s = .next { s with stat.err := .none, crc := crc8 s.crc s.data }

/-- R116, R117: the checksum of the leading bytes, compared with the last. -/
def Obligations.CrcChecksCompareLastByte : Prop :=
  decode 0x00000013 = .ok .crcrom ∧ decode 0x00000014 = .ok .crcram ∧ ∀ s : State,
    exec .crcrom s = .next { s with
      crc := checksum [s.addr[0], s.addr[1], s.addr[2], s.addr[3], s.addr[4], s.addr[5], s.addr[6]] 0
      stat := { s.stat with
        err := .none
        crcOk := checksum [s.addr[0], s.addr[1], s.addr[2], s.addr[3], s.addr[4], s.addr[5], s.addr[6]] 0 == s.addr[7] } } ∧
    exec .crcram s = .next { s with
      crc := checksum [s.ram[0], s.ram[1], s.ram[2], s.ram[3], s.ram[4], s.ram[5], s.ram[6], s.ram[7]] 0
      stat := { s.stat with
        err := .none
        crcOk := checksum [s.ram[0], s.ram[1], s.ram[2], s.ram[3], s.ram[4], s.ram[5], s.ram[6], s.ram[7]] 0 == s.ram[8] } }

/-- R126, R127: `MATCH` and `SKIP` put their frame on the wire, or abort with `E_NOPRES` after the reset slot. -/
def Obligations.MatchAndSkipSelect : Prop :=
  decode 0x00000020 = .ok .matchrom ∧ decode 0x00000021 = .ok .skip ∧ ∀ s : State,
    (s.line.peek 0 = false →
      exec .matchrom s = .next (afterFrame (wireMatchFrame s.cfg s.addr) s) ∧
      exec .skip s = .next (afterFrame (wireSkipFrame s.cfg) s)) ∧
    (s.line.peek 0 = true → exec .matchrom s = .next (afterNoPresence s) ∧ exec .skip s = .next (afterNoPresence s))

/-- R129: `RDROM` reads the eight bytes into `ADDR`, or aborts with `ADDR` unchanged. -/
def Obligations.RdromReadsAddress : Prop :=
  decode 0x00000022 = .ok .rdrom ∧ ∀ s : State,
    (s.line.peek 0 = false → exec .rdrom s = .next { afterFrame (wireReset s.cfg false ++ wireBytesOut s.cfg [0x33] ++
        wireBytesIn s.cfg (s.line.peekBytes 1 8).toList) s with addr := s.line.peekBytes 1 8 }) ∧
    (s.line.peek 0 = true → exec .rdrom s = .next (afterNoPresence s))

/-- R133: `LDADDR` copies the registry entry, or reports `E_IDX` (code 6) with nothing else changed. -/
def Obligations.LdaddrCopiesRegistryEntry : Prop :=
  ∀ (s : State) (index : Nat),
    (index ≤ 255 → decode (0x00000024#32 ||| BitVec.ofNat 32 index <<< 16) = .ok (.ldaddr index)) ∧
    (∀ h : index < s.count, exec (.ldaddr index) s = .next { s with
      stat.err := .none, addr := s.reg[index]'h }) ∧
    (s.count ≤ index → exec (.ldaddr index) s = .next { s with
      stat.err := .idx, sticky := s.sticky ||| 0x20 }) ∧ Err.idx.code = 6

/-- R166: `RDSP` reads nine bytes into the image, or aborts with it unchanged. -/
def Obligations.RdspReadsScratchPad : Prop :=
  decode 0x00000030 = .ok .rdsp ∧ ∀ s : State,
    (s.line.peek 0 = false → exec .rdsp s = .next { afterFrame (wireMatchFrame s.cfg s.addr ++
        wireBytesOut s.cfg [0xBE] ++ wireBytesIn s.cfg (s.line.peekBytes 1 9).toList) s with
      ram := s.line.peekBytes 1 9 }) ∧
    (s.line.peek 0 = true → exec .rdsp s = .next (afterNoPresence s))

/-- R168: `WRSP` updates the image first, high byte to `RAM[2]`; then it sends `RAM[2]`, `RAM[3]`, and `RAM[4]` for the
families 0x10, 0x28, 0x22. -/
def Obligations.WrspWritesScratchPad : Prop :=
  ∀ (s : State) (tw : BitVec 16),
    let u := { s with ram := #v[s.ram[0], s.ram[1], tw.extractLsb' 8 8, tw.extractLsb' 0 8,
      s.ram[4], s.ram[5], s.ram[6], s.ram[7], s.ram[8]] }
    decode (0x00000031#32 ||| tw.setWidth 32 <<< 16) = .ok (.wrsp tw) ∧
    (s.line.peek 0 = false → exec (.wrsp tw) s = .next (afterFrame (wireMatchFrame s.cfg s.addr ++
      wireBytesOut s.cfg ([0x4E, tw.extractLsb' 8 8, tw.extractLsb' 0 8] ++
        if s.addr[0] = 0x10 ∨ s.addr[0] = 0x28 ∨ s.addr[0] = 0x22 then [s.ram[4]] else [])) u)) ∧
    (s.line.peek 0 = true → exec (.wrsp tw) s = .next (afterNoPresence u))

/-- R170: `PWRQ` and `PWRQ.ALL` report the sampled level, or 0 after an abort. -/
def Obligations.PwrqReportsPower : Prop :=
  ∀ (s : State) (all : Bool),
    decode (0x00000032#32 ||| (BitVec.ofBool all).setWidth 32 <<< 8) = .ok (.pwrq all) ∧
    (s.line.peek 0 = false → exec (.pwrq all) s = .next (afterFrame (wireSelectFrame s.cfg s.addr all ++
      wireBytesOut s.cfg [0xB4] ++ wireRead s.cfg (s.line.peek 1)) { s with stat.pwrExt := s.line.peek 1 })) ∧
    (s.line.peek 0 = true → exec (.pwrq all) s = .next (afterNoPresence { s with stat.pwrExt := false }))

/-- R173: a supported `SETRES` replaces bits 6:5 of `RAM[4]` and sends the image's bytes 2 to 4; it aborts with
`E_NOPRES`, the image already changed, or, unsupported, with `E_UNSUP` (code 4) and nothing but `RES_OK` changed. -/
def Obligations.SetresWritesResolution : Prop :=
  ∀ (s : State) (n : Nat),
    let u := { s with ram := #v[s.ram[0], s.ram[1], s.ram[2], s.ram[3],
      s.ram[4] &&& 0x9F#8 ||| BitVec.ofNat 8 (n - 9) <<< 5, s.ram[5], s.ram[6], s.ram[7], s.ram[8]] }
    (n ≤ 255 → decode (0x00000034#32 ||| BitVec.ofNat 32 n <<< 16) = .ok (.setres n)) ∧
    ((s.addr[0] = 0x10 ∨ s.addr[0] = 0x28 ∨ s.addr[0] = 0x22) → 9 ≤ n → n ≤ 12 →
      (s.line.peek 0 = false → exec (.setres n) s = .next (afterFrame (wireMatchFrame s.cfg s.addr ++
        wireBytesOut s.cfg [0x4E, s.ram[2], s.ram[3], s.ram[4] &&& 0x9F#8 ||| BitVec.ofNat 8 (n - 9) <<< 5])
        { u with stat.resOk := true })) ∧
      (s.line.peek 0 = true → exec (.setres n) s = .next (afterNoPresence { u with stat.resOk := false }))) ∧
    (¬ (s.addr[0] = 0x10 ∨ s.addr[0] = 0x28 ∨ s.addr[0] = 0x22) ∨ n < 9 ∨ 12 < n →
      exec (.setres n) s = .next { s with
        stat := { s.stat with err := .unsup, resOk := false }, sticky := s.sticky ||| 0x08 }) ∧ Err.unsup.code = 4

/-- R185, R184: `CONVT` selects, sends 0x44 and runs the power phase; `DELAY` is 0 when the controller consumes the
delay itself; an abort leaves `DELAY` = 0. -/
def Obligations.ConvtTriggersConversion : Prop :=
  ∀ (s : State) (all wait : Bool),
    let d := convDelay s.cfg.conv all s.addr[0] s.ram[4]
    decode (0x00000033#32 ||| (BitVec.ofBool all).setWidth 32 <<< 8 ||| (BitVec.ofBool wait).setWidth 32 <<< 9) =
      .ok (.convt all wait) ∧
    (s.line.peek 0 = false → exec (.convt all wait) s = .next (afterFrame (wireSelectFrame s.cfg s.addr all ++
      wireBytesOut s.cfg [0x44] ++ wirePower s.ctrl d wait)
      { s with delay := if s.ctrl.parasite = true ∨ wait = true then 0 else d })) ∧
    (s.line.peek 0 = true → exec (.convt all wait) s = .next (afterNoPresence { s with delay := 0 }))

/-- R182: the conversion delay for the parameter's value. -/
def Obligations.ConversionDelayTable : Prop :=
  ∀ (all : Bool) (family cfg : Byte), convDelay .spec all family cfg =
    if all = true then 750 else if family = 0x3B then 150
    else if family = 0x28 ∨ family = 0x22 then
      (if cfg.extractLsb' 5 2 = 0 then 94 else if cfg.extractLsb' 5 2 = 1 then 188
        else if cfg.extractLsb' 5 2 = 2 then 375 else 750)
    else 750

/-- R190: `INIT` clears the registry and the image, and takes the parasite strategy from the broadcast query, or leaves
`PARASITE` = 1 after an abort. -/
def Obligations.InitQueriesPower : Prop :=
  decode 0x0000003F = .ok .init ∧ ∀ s : State,
    let u := { s with reg := [], ram := #v[0, 0, 0, 0, 0, 0, 0, 0, 0] }
    (s.line.peek 0 = false → exec .init s = .next (afterFrame (wireSkipFrame s.cfg ++ wireBytesOut s.cfg [0xB4] ++
      wireRead s.cfg (s.line.peek 1))
      { u with stat.pwrExt := s.line.peek 1, ctrl.parasite := !s.line.peek 1 })) ∧
    (s.line.peek 0 = true → exec .init s = .next (afterNoPresence { u with
      stat.pwrExt := false, ctrl.parasite := true }))

/-! ## CRC-8 -/

/-- R112: (a) `crc8` depends on the exclusive-or of its arguments, with the first 16 table entries; (b) a byte equal to
the accumulator gives 0, and a buffer followed by its checksum has checksum 0; (c) it is a bijection in each argument;
(d) changing exactly one byte of a buffer changes its checksum; (e) an all-zero buffer has checksum 0. -/
def Obligations.CrcEightLaws : Prop :=
  (∀ c b : Byte, crc8 c b = crc8 0 (c ^^^ b)) ∧
  ((List.range 16).map fun x => crc8 0 (BitVec.ofNat 8 x)) =
    [0x00, 0x5E, 0xBC, 0xE2, 0x61, 0x3F, 0xDD, 0x83, 0xC2, 0x9C, 0x7E, 0x20, 0xA3, 0xFD, 0x1F, 0x41] ∧
  (∀ c : Byte, crc8 c c = 0) ∧ (∀ bytes : List Byte, checksum (bytes ++ [checksum bytes 0]) 0 = 0) ∧
  (∀ c : Byte, Function.Bijective fun b => crc8 c b) ∧ (∀ b : Byte, Function.Bijective fun c => crc8 c b) ∧
  (∀ (before after : List Byte) (x y : Byte), x ≠ y →
    checksum (before ++ x :: after) 0 ≠ checksum (before ++ y :: after) 0) ∧
  crc8 0 0 = 0 ∧ ∀ n, checksum (List.replicate n 0) 0 = 0

/-- R119: the accumulator after each byte of the source's example, and the residue with the checksum appended. -/
def Obligations.CrcWorkedExample : Prop :=
  ([1, 2, 3, 4, 5, 6, 7, 8].map fun n =>
    checksum (([0x28, 0x62, 0x24, 0xC7, 0x03, 0x00, 0x00, 0x0F] : List Byte).take n) 0) =
  [0xE1, 0x6E, 0x38, 0x35, 0x63, 0x87, 0x0F, 0x00]

/-! ## The search -/

/-- R154, the first half: for a fixed set of well-behaved devices, listed in the order of the wire, with distinct valid
addresses, an empty registry and room for all, `FINDALL` makes one descent for each, writes the bits of each, and ends
with `SRCH_DONE` = 1 and the devices in the registry in that order. -/
def Obligations.FindallFindsFixedSetInOrder : Prop :=
  ∀ (s : State) (ds : List RomAddr) (last : RomAddr) (rest : List Bool),
    ds.Pairwise wireBefore → (∀ d ∈ ds, ValidRom d) → ds.getLast? = some last → ds.length ≤ s.cfg.nDev →
    s.reg = [] → s.line.bus = ds.flatMap (descentSamples ds) ++ rest →
    exec .findall s = .next { s with
      stat := { s.stat with err := .none, pres := true, srchDone := true }
      reg := ds, srom := last, crc := last[7], lastd := 0, mark := 0, busy := false
      line := s.line.play (ds.flatMap (wireDescent s.cfg ds)) }

/-- R154, "A second pass": over the same devices, all in the registry already, `FINDALL` makes the same descents and
leaves the registry unchanged. -/
def Obligations.FindallSecondPassKeepsRegistry : Prop :=
  ∀ (s : State) (ds : List RomAddr) (last : RomAddr) (rest : List Bool),
    ds.Pairwise wireBefore → (∀ d ∈ ds, ValidRom d) → ds.getLast? = some last → ds.length ≤ s.cfg.nDev →
    (∀ d ∈ ds, d ∈ s.reg) → s.line.bus = ds.flatMap (descentSamples ds) ++ rest →
    exec .findall s = .next { s with
      stat := { s.stat with err := .none, pres := true, srchDone := true }
      srom := last, crc := last[7], lastd := 0, mark := 0, busy := false
      line := s.line.play (ds.flatMap (wireDescent s.cfg ds)) }

/-- R155, the row "no presence", for the first descent: nothing but the reset slot happens. -/
def Obligations.FindallOnEmptyBus : Prop :=
  ∀ s : State, s.line.peek 0 = true →
    exec .findall s = .next (afterNoPresence { s with
      stat.srchDone := false, srom := #v[0, 0, 0, 0, 0, 0, 0, 0], lastd := 0, mark := 0, busy := false })

/-- R159 (a): presence but no answer to the search gives `E_COLL` (code 2) at position 1, with no write slot after the
pair. -/
def Obligations.FindallWithoutAnswerReportsCollision : Prop :=
  ∀ s : State, s.line.peek 0 = false → s.line.peek 1 = true → s.line.peek 2 = true →
    exec .findall s = .next { s with
      stat := { s.stat with err := .coll, pres := true, srchDone := false }, sticky := s.sticky ||| 0x02
      srom := #v[0, 0, 0, 0, 0, 0, 0, 0], lastd := 0, mark := 0, busy := false
      line := s.line.play (wireReset s.cfg false ++ wireBytesOut s.cfg [0xF0] ++ wireRead s.cfg true ++
        wireRead s.cfg true) } ∧ Err.coll.code = 2

/-- R152, R155, R215: how `FINDALL` can leave the state, whether it has just been written to `CMD` or a step continues
its pass (log entry 3). It is still under way exactly if it has neither ended by exhaustion nor aborted; by exhaustion
the search state is clear; the registry keeps what it had and grows by valid addresses, none twice; every error has its
code and its flag of `STICKY`; without presence `MARK` is `LASTD`; on a checksum error `SROM` holds the failing address
and `CRC` its checksum; on overflow the registry is full and `SROM` is not in it. An aborted descent leaves `LASTD` and
the registry as they were. -/
def Obligations.FindallEndings : Prop :=
  (∀ s t : State, exec .findall s = .next t ∨ (PassGoesOn s t ∧ PassClean s) →
    (t.busy = true ↔ t.stat.srchDone = false ∧ t.stat.err = .none) ∧
    (t.busy = true → t.lastd ≠ 0 ∧ t.mark = t.lastd) ∧
    (t.stat.err = .none → t.sticky = s.sticky ∧ t.stat.pres = true ∧ t.srom ∈ t.reg ∧ ValidRom t.srom ∧
      t.crc = t.srom[7]) ∧
    (t.stat.srchDone = true → t.stat.err = .none ∧ t.lastd = 0 ∧ t.mark = 0) ∧
    (∃ new, t.reg = s.reg ++ new ∧ new.Nodup ∧ (∀ a ∈ new, ValidRom a ∧ a ∉ s.reg)) ∧
    (t.stat.err = .noPres → t.stat.pres = false ∧ t.mark = t.lastd ∧ t.sticky = s.sticky ||| 0x01) ∧
    (t.stat.err = .coll → t.stat.pres = true ∧ t.sticky = s.sticky ||| 0x02) ∧
    (t.stat.err = .crc → t.stat.pres = true ∧ t.crc = romChecksum t.srom ∧ ¬ ValidRom t.srom ∧
      t.sticky = s.sticky ||| 0x04) ∧
    (t.stat.err = .regOvf → t.stat.pres = true ∧ t.count = s.cfg.nDev ∧ t.srom ∉ t.reg ∧ ValidRom t.srom ∧
      t.sticky = s.sticky ||| 0x40)) ∧
  (∀ s t : State, descent s = .aborted t → t.lastd = s.lastd ∧ t.reg = s.reg) ∧
  Err.none.code = 0 ∧ Err.noPres.code = 1 ∧ Err.coll.code = 2 ∧ Err.crc.code = 3 ∧ Err.regOvf.code = 7

/-- R153: in the first descent of a pass (`LASTD` = 0) what `SROM` holds cannot influence anything but, after an early
abort, `SROM` itself: a complete descent leads to the same state, one that aborts to the same state but for `SROM`, and
for `SROM` too if all 64 positions were visited. So the whole pass does not depend on it either, cleared or not. -/
def Obligations.FirstDescentIgnoresOldAddress : Prop :=
  (∀ (s t : State) (a : RomAddr), s.lastd = 0 →
    (descent s = .go t → descent { s with srom := a } = .go t) ∧
    (descent s = .aborted t → ∃ x, descent { s with srom := a } = .aborted { t with srom := x } ∧
      (t.stat.err = .crc ∨ t.stat.err = .regOvf → x = t.srom))) ∧
  ∀ (s : State) (a : RomAddr), ∃ x,
    continuePass { startPass s with srom := a } = { continuePass (startPass s) with srom := x }

/-- R146: the branch taken at a discrepancy: the bit at `pos` afterwards, the mark, every other bit and all other
state kept. -/
def Obligations.DiscrepancyBranchRule : Prop :=
  ∀ (s : State) (pos : Nat), 1 ≤ pos → pos ≤ 64 →
    (pos = s.lastd.toNat → romBit (decideBranch pos s).srom pos = true ∧ (decideBranch pos s).mark = s.mark) ∧
    (s.lastd.toNat < pos → romBit (decideBranch pos s).srom pos = false ∧ (decideBranch pos s).mark.toNat = pos) ∧
    (pos < s.lastd.toNat → (decideBranch pos s).srom = s.srom ∧
      (romBit s.srom pos = true → (decideBranch pos s).mark = s.mark) ∧
      (romBit s.srom pos = false → (decideBranch pos s).mark.toNat = pos)) ∧
    (∀ q, 1 ≤ q → q ≤ 64 → q ≠ pos → romBit (decideBranch pos s).srom q = romBit s.srom q) ∧
    decideBranch pos s = { s with srom := (decideBranch pos s).srom, mark := (decideBranch pos s).mark }

/-! ## Invariants -/

/-- The invariants of R36 hold after hardware reset. -/
def Obligations.ResetMeetsInvariants : Prop := Inv State.reset

/-- R36: the invariants are kept by every command and every host access. -/
def Obligations.StepKeepsInvariants : Prop := ∀ s t : State, Inv s → step s = .next t → Inv t

/-! ## Rules of the whole machine -/

/-- R10, R18: a command writes only the state whose column "Written by" names it. -/
def Obligations.CommandsWriteOnlyTheirState : Prop :=
  ∀ (i : Instr) (s t : State), Advances i s t →
    t.cfg = s.cfg ∧ t.host = s.host ∧ t.replies = s.replies ∧
    (writesAddr i = false → t.addr = s.addr) ∧ (writesRam i = false → t.ram = s.ram) ∧
    (writesCrc i = false → t.crc = s.crc) ∧ (i ≠ .rbyte → t.data = s.data) ∧
    (writesReg i = false → t.reg = s.reg) ∧
    (i ≠ .findall → t.srom = s.srom ∧ t.lastd = s.lastd ∧ t.mark = s.mark ∧ t.busy = s.busy ∧
      t.stat.srchDone = s.stat.srchDone) ∧
    (isConvt i = false → t.delay = s.delay) ∧ (i ≠ .init → t.ctrl = s.ctrl) ∧
    t.ctrl.pwrEn = s.ctrl.pwrEn ∧ t.ctrl.pwrPol = s.ctrl.pwrPol ∧
    (writesPres i = false → t.stat.pres = s.stat.pres) ∧ (i ≠ .rbit → t.stat.bit = s.stat.bit) ∧
    (writesPwrExt i = false → t.stat.pwrExt = s.stat.pwrExt) ∧
    (writesCrcOk i = false → t.stat.crcOk = s.stat.crcOk) ∧ (isSetres i = false → t.stat.resOk = s.stat.resOk)

/-- R19, R220: after a command, flag `k` of `STICKY` is set iff it was set before or the command's error code is `k`;
no command clears a flag. A step that continues a pass starts from the pass's invariant. -/
def Obligations.StickyRecordsEveryError : Prop :=
  ∀ (i : Instr) (s t : State), exec i s = .next t ∨ (i = .findall ∧ PassGoesOn s t ∧ PassClean s) →
    ∀ k, 1 ≤ k → k ≤ 7 → (t.stickyFlag k = true ↔ s.stickyFlag k = true ∨ t.stat.err.code.toNat = k)

/-- R215, the column "Raised by": which command can end in which error. A step that continues a pass starts from the
pass's invariant. -/
def Obligations.ErrorsHaveTheirRaisers : Prop :=
  ∀ (i : Instr) (s t : State), exec i s = .next t ∨ (i = .findall ∧ PassGoesOn s t ∧ PassClean s) →
    canRaise t.stat.err i = true

/-- R215, R226, and `HostMove.expected` of Safety.lean (U9, U10): a move that the spec expects of a host never gives
`E_ILL`. -/
def Obligations.ExpectedMovesNeverGiveEIll : Prop :=
  ∀ (s t : State) (m : HostMove) (rest : List HostMove), s.busy = false → s.host = m :: rest → m.expected = true →
    step s = .next t → t.stat.err = .ill → s.stat.err = .ill

/-- R15: no command changes a registry entry, and only `CLRREG` and `INIT` remove any. -/
def Obligations.RegistryOnlyGrows : Prop :=
  ∀ (i : Instr) (s t : State), Advances i s t → i ≠ .clrreg → i ≠ .init → s.reg <+: t.reg

/-- R9, R53: all a command does to the pins is a sequence of events appended to the trace, and the samples in it are
those the environment supplies, in order. -/
def Obligations.CommandsAppendEvents : Prop :=
  ∀ (i : Instr) (s t : State), Advances i s t →
    ∃ es, t.line = s.line.play es ∧ t.line.trace = es.reverse ++ s.line.trace ∧
      samplesOf es = (List.range (samplesOf es).length).map s.line.peek

/-- R46: the commands that touch no pin append no event and take no sample, and what they leave does not depend on the
line. -/
def Obligations.PinFreeCommands : Prop :=
  ∀ (i : Instr) (s : State) (l : Line), touchesNoPin i = true →
    ∃ t, exec i s = .next t ∧ t.line = s.line ∧ exec i { s with line := l } = .next { t with line := l }

/-- R186: only `CONVT` supplies power. -/
def Obligations.OnlyConvtSuppliesPower : Prop :=
  ∀ (i : Instr) (s t : State) (es : List Event), Advances i s t → t.line.trace = es ++ s.line.trace →
    isConvt i = false → .driveHigh ∉ es ∧ .pwrOn ∉ es

/-- R94: in the events of every command each critical window that is entered is left before the next is entered, and
none is open at the end. -/
def Obligations.CriticalWindowsPair : Prop :=
  ∀ (i : Instr) (s t : State) (es : List Event), Advances i s t → t.line.trace = es.reverse ++ s.line.trace →
    critPaired false es = true

/-- R101: the ticks and the samples of each slot and byte, for the figures of R6. -/
def Obligations.SlotLengths : Prop :=
  ∀ (v : Byte) (b : Bool), let c := Config.spec
    ticks (wireReset c b) = 960 ∧ ticks (wireWrite c true) = 58 ∧ ticks (wireWrite c false) = 68 ∧
    ticks (wireRead c b) = 51 ∧ ticks (wireBytesOut c [v]) = 464 + 10 * zeroBits v ∧
    ticks (wireBytesIn c [v]) = 408 ∧ samplesOf (wireReset c b) = [b] ∧ samplesOf (wireWrite c b) = [] ∧
    samplesOf (wireRead c b) = [b] ∧ samplesOf (wireBytesOut c [v]) = [] ∧
    (samplesOf (wireBytesIn c [v])).length = 8

/-- R158: the ticks of the head of a descent, of each of its triplets, and of a complete descent, with its samples; for
the figures of R6, whatever the line answers. -/
def Obligations.DescentLength : Prop :=
  ∀ (s t : State) (es : List Event), s.cfg = Config.spec → t.line = s.line.play es →
    (descentHead s = .go t → es = wireReset .spec false ++ wireBytesOut .spec [0xF0] ∧
      ticks (wireReset .spec false) = 960 ∧ ticks (wireBytesOut .spec [0xF0]) = 504) ∧
    (∀ pos, triplet pos s = .go t → ticks es = if romBit t.srom pos = true then 160 else 170) ∧
    (descent s = .go t → 11704 ≤ ticks es ∧ ticks es ≤ 12344 ∧ (samplesOf es).length = 129)

/-! ## Pseudo-commands -/

/-- R67: `CHECKSUM` leaves in `CRC` the checksum of the bytes with seed 0, and answers it to the host. -/
def Obligations.ChecksumPseudoCommand : Prop :=
  ∀ (s : State) (bytes : List Byte), s.busy = false → s.host = pseudoChecksum bytes →
    Core.run core (bytes.length + 2) s = .next { s with
      host := [], stat.err := .none, crc := checksum bytes 0
      replies := (checksum bytes 0).setWidth 32 :: s.replies }

/-- R67: `SETADDR` leaves the address in `ADDR` and changes nothing else. -/
def Obligations.SetAddrPseudoCommand : Prop :=
  ∀ (s : State) (a : RomAddr), s.busy = false → s.host = pseudoSetAddr a →
    Core.run core 2 s = .next { s with host := [], addr := a }
end

