-- ==== Sys2Proof/Laws/Line.lean ====
section
/-! SUPPORT. What the transport does to the line: every primitive plays a sequence of events, the shorthand of Safety.lean, and
returns the samples to come. -/

namespace Sys2Proof.Machine

/-! ## Playing events -/

@[simp] theorem Line.play_nil (l : Line) : l.play [] = l := rfl

@[simp] theorem Line.play_cons (l : Line) (e : Event) (es : List Event) : l.play (e :: es) = (l.emit e).play es := rfl

theorem Line.play_append (l : Line) (es fs : List Event) : l.play (es ++ fs) = (l.play es).play fs := by
  simp [Line.play]

@[simp] theorem Line.emit_trace (l : Line) (e : Event) : (l.emit e).trace = e :: l.trace := by
  cases e <;> rfl

theorem Line.play_trace (l : Line) (es : List Event) : (l.play es).trace = es.reverse ++ l.trace := by
  induction es generalizing l with
  | nil => rfl
  | cons e es ih => simp [ih]

/-! ## The samples to come -/

@[simp] theorem samplesOf_nil : samplesOf [] = [] := rfl

@[simp] theorem samplesOf_append (es fs : List Event) : samplesOf (es ++ fs) = samplesOf es ++ samplesOf fs := by
  simp [samplesOf]

theorem samplesOf_flatMap {α : Type} (f : α → List Event) (xs : List α) :
    samplesOf (xs.flatMap f) = xs.flatMap fun x => samplesOf (f x) := by
  induction xs with
  | nil => rfl
  | cons x xs ih => simp [ih]

theorem Line.peek_drop (bus : List Bool) (drawn k : Nat) (l : Line) (hb : l.bus = bus.drop 1)
    (hd : l.drawn = drawn + (1 - bus.length)) :
    l.peek k = bus[k + 1]?.getD (Config.freeSample (drawn + (k + 1 - bus.length))) := by
  simp only [Line.peek, hb, hd, List.getElem?_drop, List.length_drop]
  rw [Nat.add_comm 1 k]
  congr 2
  omega

theorem Line.peek_emit (l : Line) (e : Event) (k : Nat) : (l.emit e).peek k = l.peek (k + (samplesOf [e]).length) := by
  cases e with
  | sample v => exact Line.peek_drop l.bus l.drawn k _ rfl rfl
  | _ => rfl

theorem Line.peek_play (l : Line) (es : List Event) (k : Nat) :
    (l.play es).peek k = l.peek (k + (samplesOf es).length) := by
  induction es generalizing l k with
  | nil => rfl
  | cons e es ih =>
    rw [Line.play_cons, ih, Line.peek_emit, show e :: es = [e] ++ es from rfl, samplesOf_append, List.length_append]
    congr 1
    omega

/-- The first samples to come are those the environment has supplied. -/
theorem Line.peek_of_bus (l : Line) (xs rest : List Bool) (h : l.bus = xs ++ rest) (k : Nat) (hk : k < xs.length) :
    l.peek k = xs[k] := by
  simp [Line.peek, h, List.getElem?_append_left hk, hk]

/-! ## Slots -/

theorem Line.resetSlot_eq (c : Config) (l : Line) :
    l.resetSlot c = (!l.peek 0, l.play (wireReset c (l.peek 0))) := rfl

theorem Line.writeSlot_eq (c : Config) (b : Bool) (l : Line) : l.writeSlot c b = l.play (wireWrite c b) := by
  cases b <;> rfl

theorem Line.readSlot_eq (c : Config) (l : Line) : l.readSlot c = (l.peek 0, l.play (wireRead c (l.peek 0))) := rfl

@[simp] theorem samplesOf_wireReset (c : Config) (v : Bool) : samplesOf (wireReset c v) = [v] := rfl

@[simp] theorem samplesOf_wireWrite (c : Config) (b : Bool) : samplesOf (wireWrite c b) = [] := by cases b <;> rfl

@[simp] theorem samplesOf_wireRead (c : Config) (v : Bool) : samplesOf (wireRead c v) = [v] := rfl

/-! ## Bytes out -/

theorem Line.foldl_play {α : Type} (f : α → List Event) (xs : List α) (l : Line) :
    xs.foldl (fun l x => l.play (f x)) l = l.play (xs.flatMap f) := by
  induction xs generalizing l with
  | nil => rfl
  | cons x xs ih => simp [ih, Line.play_append]

theorem Line.writeByte_eq (c : Config) (v : Byte) (l : Line) :
    l.writeByte c v = l.play ((List.range 8).flatMap fun i => wireWrite c (v.getLsbD i)) := by
  simp only [Line.writeByte, Line.writeSlot_eq]
  exact Line.foldl_play _ _ _

theorem Line.writeBytes_eq (c : Config) (vs : List Byte) (l : Line) :
    l.writeBytes c vs = l.play (wireBytesOut c vs) := by
  simp only [Line.writeBytes, Line.writeByte_eq]
  exact Line.foldl_play _ _ _

theorem wireBytesOut_append (c : Config) (vs ws : List Byte) :
    wireBytesOut c (vs ++ ws) = wireBytesOut c vs ++ wireBytesOut c ws := by
  simp [wireBytesOut]

@[simp] theorem samplesOf_wireBytesOut (c : Config) (vs : List Byte) : samplesOf (wireBytesOut c vs) = [] := by
  simp [wireBytesOut, samplesOf_flatMap]

/-! ## Bytes in -/

theorem samplesOf_reads (c : Config) (f : Nat → Bool) (ks : List Nat) :
    samplesOf (ks.flatMap fun i => wireRead c (f i)) = ks.map f := by
  induction ks with
  | nil => rfl
  | cons k ks ih => simp [ih]

theorem Line.readBits_eq (c : Config) (n : Nat) (l : Line) :
    l.readBits c n =
      (BitVec.ofFnLE fun i : Fin n => l.peek i, l.play ((List.range n).flatMap fun i => wireRead c (l.peek i))) := by
  induction n with
  | zero => exact Prod.ext (Subsingleton.elim _ _) rfl
  | succ n ih =>
    simp only [Line.readBits, ih, Line.readSlot_eq, Line.peek_play, samplesOf_reads, List.length_map, List.length_range,
      Nat.zero_add, Prod.mk.injEq]
    constructor
    · apply BitVec.eq_of_getLsbD_eq
      intro i hi
      rw [BitVec.getLsbD_cons, BitVec.getLsbD_ofFnLE, BitVec.getLsbD_ofFnLE]
      split
      · subst_vars; simp
      · rw [dif_pos (show i < n by omega)]
    · rw [← Line.play_append, List.range_succ, List.flatMap_append]
      simp

theorem Line.peekByte_bit (l : Line) (k i : Nat) (h : i < 8) : (l.peekByte k).getLsbD i = l.peek (k + i) := by
  simp [Line.peekByte, h]

theorem Line.readByte_eq (c : Config) (l : Line) :
    l.readByte c = (l.peekByte 0, l.play (wireBytesIn c [l.peekByte 0])) := by
  have hb : l.peekByte 0 = BitVec.ofFnLE fun i : Fin 8 => l.peek i := by simp [Line.peekByte]
  rw [Line.readByte, Line.readBits_eq, ← hb]
  simp only [wireBytesIn, List.flatMap_cons, List.flatMap_nil, List.append_nil, Prod.mk.injEq, true_and]
  congr 1
  apply List.flatMap_congr
  intro i hi
  rw [Line.peekByte_bit _ _ _ (by simpa using hi), Nat.zero_add]

theorem wireBytesIn_append (c : Config) (vs ws : List Byte) :
    wireBytesIn c (vs ++ ws) = wireBytesIn c vs ++ wireBytesIn c ws := by
  simp [wireBytesIn]

theorem samplesOf_wireBytesIn (c : Config) (vs : List Byte) :
    samplesOf (wireBytesIn c vs) = vs.flatMap fun v => (List.range 8).map v.getLsbD := by
  simp only [wireBytesIn, samplesOf_flatMap]
  apply List.flatMap_congr
  intro v _
  have := samplesOf_reads c v.getLsbD (List.range 8)
  rwa [samplesOf_flatMap] at this

theorem samplesOf_wireBytesIn_length (c : Config) (vs : List Byte) :
    (samplesOf (wireBytesIn c vs)).length = 8 * vs.length := by
  rw [samplesOf_wireBytesIn]
  induction vs with
  | nil => rfl
  | cons v vs ih =>
    rw [List.flatMap_cons, List.length_append, ih, List.length_cons]
    simp
    omega

theorem Line.peekByte_play (l : Line) (es : List Event) (k : Nat) :
    (l.play es).peekByte k = l.peekByte (k + (samplesOf es).length) := by
  simp only [Line.peekByte, Line.peek_play]
  congr 1
  funext i
  congr 1
  omega

theorem Line.peekBytes_play (l : Line) (es : List Event) (k n : Nat) :
    (l.play es).peekBytes k n = l.peekBytes (k + (samplesOf es).length) n := by
  simp only [Line.peekBytes, Line.peekByte_play]
  congr 1
  funext i
  congr 1
  omega

theorem Line.peekBytes_succ (l : Line) (k n : Nat) :
    l.peekBytes k (n + 1) = (l.peekBytes k n).push (l.peekByte (k + 8 * n)) := by
  ext i hi : 1
  simp only [Line.peekBytes, Vector.getElem_ofFn, Vector.getElem_push]
  split
  · rfl
  · rw [show i = n by omega]

theorem Line.readBytes_eq (c : Config) (n : Nat) (l : Line) :
    l.readBytes c n = (l.peekBytes 0 n, l.play (wireBytesIn c (l.peekBytes 0 n).toList)) := by
  induction n with
  | zero => rfl
  | succ n ih =>
    have hlen : (l.peekBytes 0 n).toList.length = n := by simp
    simp only [Line.readBytes, ih, Line.readByte_eq, Line.peekByte_play, samplesOf_wireBytesIn_length, hlen,
      Line.peekBytes_succ, Prod.mk.injEq, true_and]
    rw [← Line.play_append, Vector.toList_push, wireBytesIn_append]

end Sys2Proof.Machine
end

