-- ==== Sys2Proof/Laws/State.lean ====
section
/-! SUPPORT. One lemma for each field and each shared update of the state: what the update leaves in the field. -/

namespace Sys2Proof.Machine

/-! ## The prologue (R219) -/

@[simp] theorem prologue_cfg (s : State) : (prologue s).cfg = s.cfg := rfl

@[simp] theorem prologue_addr (s : State) : (prologue s).addr = s.addr := rfl

@[simp] theorem prologue_ram (s : State) : (prologue s).ram = s.ram := rfl

@[simp] theorem prologue_crc (s : State) : (prologue s).crc = s.crc := rfl

@[simp] theorem prologue_data (s : State) : (prologue s).data = s.data := rfl

@[simp] theorem prologue_reg (s : State) : (prologue s).reg = s.reg := rfl

@[simp] theorem prologue_srom (s : State) : (prologue s).srom = s.srom := rfl

@[simp] theorem prologue_lastd (s : State) : (prologue s).lastd = s.lastd := rfl

@[simp] theorem prologue_mark (s : State) : (prologue s).mark = s.mark := rfl

@[simp] theorem prologue_delay (s : State) : (prologue s).delay = s.delay := rfl

@[simp] theorem prologue_sticky (s : State) : (prologue s).sticky = s.sticky := rfl

@[simp] theorem prologue_ctrl (s : State) : (prologue s).ctrl = s.ctrl := rfl

@[simp] theorem prologue_line (s : State) : (prologue s).line = s.line := rfl

@[simp] theorem prologue_busy (s : State) : (prologue s).busy = s.busy := rfl

@[simp] theorem prologue_host (s : State) : (prologue s).host = s.host := rfl

@[simp] theorem prologue_replies (s : State) : (prologue s).replies = s.replies := rfl

@[simp] theorem prologue_pres (s : State) : (prologue s).stat.pres = s.stat.pres := rfl

@[simp] theorem prologue_bit (s : State) : (prologue s).stat.bit = s.stat.bit := rfl

@[simp] theorem prologue_pwrExt (s : State) : (prologue s).stat.pwrExt = s.stat.pwrExt := rfl

@[simp] theorem prologue_crcOk (s : State) : (prologue s).stat.crcOk = s.stat.crcOk := rfl

@[simp] theorem prologue_resOk (s : State) : (prologue s).stat.resOk = s.stat.resOk := rfl

@[simp] theorem prologue_srchDone (s : State) : (prologue s).stat.srchDone = s.stat.srchDone := rfl

@[simp] theorem prologue_err (s : State) : (prologue s).stat.err = .none := rfl

/-! ## Raising an error (R220) -/

@[simp] theorem raise_cfg (e : Err) (s : State) : (raise e s).cfg = s.cfg := rfl

@[simp] theorem raise_addr (e : Err) (s : State) : (raise e s).addr = s.addr := rfl

@[simp] theorem raise_ram (e : Err) (s : State) : (raise e s).ram = s.ram := rfl

@[simp] theorem raise_crc (e : Err) (s : State) : (raise e s).crc = s.crc := rfl

@[simp] theorem raise_data (e : Err) (s : State) : (raise e s).data = s.data := rfl

@[simp] theorem raise_reg (e : Err) (s : State) : (raise e s).reg = s.reg := rfl

@[simp] theorem raise_srom (e : Err) (s : State) : (raise e s).srom = s.srom := rfl

@[simp] theorem raise_lastd (e : Err) (s : State) : (raise e s).lastd = s.lastd := rfl

@[simp] theorem raise_mark (e : Err) (s : State) : (raise e s).mark = s.mark := rfl

@[simp] theorem raise_delay (e : Err) (s : State) : (raise e s).delay = s.delay := rfl

@[simp] theorem raise_ctrl (e : Err) (s : State) : (raise e s).ctrl = s.ctrl := rfl

@[simp] theorem raise_line (e : Err) (s : State) : (raise e s).line = s.line := rfl

@[simp] theorem raise_busy (e : Err) (s : State) : (raise e s).busy = s.busy := rfl

@[simp] theorem raise_host (e : Err) (s : State) : (raise e s).host = s.host := rfl

@[simp] theorem raise_replies (e : Err) (s : State) : (raise e s).replies = s.replies := rfl

@[simp] theorem raise_pres (e : Err) (s : State) : (raise e s).stat.pres = s.stat.pres := rfl

@[simp] theorem raise_bit (e : Err) (s : State) : (raise e s).stat.bit = s.stat.bit := rfl

@[simp] theorem raise_pwrExt (e : Err) (s : State) : (raise e s).stat.pwrExt = s.stat.pwrExt := rfl

@[simp] theorem raise_crcOk (e : Err) (s : State) : (raise e s).stat.crcOk = s.stat.crcOk := rfl

@[simp] theorem raise_resOk (e : Err) (s : State) : (raise e s).stat.resOk = s.stat.resOk := rfl

@[simp] theorem raise_srchDone (e : Err) (s : State) : (raise e s).stat.srchDone = s.stat.srchDone := rfl

@[simp] theorem raise_err (e : Err) (s : State) : (raise e s).stat.err = e := rfl

@[simp] theorem raise_sticky (e : Err) (s : State) : (raise e s).sticky = s.sticky ||| e.stickyBit := rfl

/-! ## Anything on the line only -/

@[simp] theorem State.onLine_cfg (f : Line → Line) (s : State) : (s.onLine f).cfg = s.cfg := rfl

@[simp] theorem State.onLine_addr (f : Line → Line) (s : State) : (s.onLine f).addr = s.addr := rfl

@[simp] theorem State.onLine_ram (f : Line → Line) (s : State) : (s.onLine f).ram = s.ram := rfl

@[simp] theorem State.onLine_crc (f : Line → Line) (s : State) : (s.onLine f).crc = s.crc := rfl

@[simp] theorem State.onLine_data (f : Line → Line) (s : State) : (s.onLine f).data = s.data := rfl

@[simp] theorem State.onLine_reg (f : Line → Line) (s : State) : (s.onLine f).reg = s.reg := rfl

@[simp] theorem State.onLine_srom (f : Line → Line) (s : State) : (s.onLine f).srom = s.srom := rfl

@[simp] theorem State.onLine_lastd (f : Line → Line) (s : State) : (s.onLine f).lastd = s.lastd := rfl

@[simp] theorem State.onLine_mark (f : Line → Line) (s : State) : (s.onLine f).mark = s.mark := rfl

@[simp] theorem State.onLine_delay (f : Line → Line) (s : State) : (s.onLine f).delay = s.delay := rfl

@[simp] theorem State.onLine_stat (f : Line → Line) (s : State) : (s.onLine f).stat = s.stat := rfl

@[simp] theorem State.onLine_sticky (f : Line → Line) (s : State) : (s.onLine f).sticky = s.sticky := rfl

@[simp] theorem State.onLine_ctrl (f : Line → Line) (s : State) : (s.onLine f).ctrl = s.ctrl := rfl

@[simp] theorem State.onLine_line (f : Line → Line) (s : State) : (s.onLine f).line = f s.line := rfl

@[simp] theorem State.onLine_busy (f : Line → Line) (s : State) : (s.onLine f).busy = s.busy := rfl

@[simp] theorem State.onLine_host (f : Line → Line) (s : State) : (s.onLine f).host = s.host := rfl

@[simp] theorem State.onLine_replies (f : Line → Line) (s : State) : (s.onLine f).replies = s.replies := rfl

/-! ## Bytes and slots written -/

@[simp] theorem State.writeBytes_cfg (vs : List Byte) (s : State) : (s.writeBytes vs).cfg = s.cfg := rfl

@[simp] theorem State.writeBytes_addr (vs : List Byte) (s : State) : (s.writeBytes vs).addr = s.addr := rfl

@[simp] theorem State.writeBytes_ram (vs : List Byte) (s : State) : (s.writeBytes vs).ram = s.ram := rfl

@[simp] theorem State.writeBytes_crc (vs : List Byte) (s : State) : (s.writeBytes vs).crc = s.crc := rfl

@[simp] theorem State.writeBytes_data (vs : List Byte) (s : State) : (s.writeBytes vs).data = s.data := rfl

@[simp] theorem State.writeBytes_reg (vs : List Byte) (s : State) : (s.writeBytes vs).reg = s.reg := rfl

@[simp] theorem State.writeBytes_srom (vs : List Byte) (s : State) : (s.writeBytes vs).srom = s.srom := rfl

@[simp] theorem State.writeBytes_lastd (vs : List Byte) (s : State) : (s.writeBytes vs).lastd = s.lastd := rfl

@[simp] theorem State.writeBytes_mark (vs : List Byte) (s : State) : (s.writeBytes vs).mark = s.mark := rfl

@[simp] theorem State.writeBytes_delay (vs : List Byte) (s : State) : (s.writeBytes vs).delay = s.delay := rfl

@[simp] theorem State.writeBytes_stat (vs : List Byte) (s : State) : (s.writeBytes vs).stat = s.stat := rfl

@[simp] theorem State.writeBytes_sticky (vs : List Byte) (s : State) : (s.writeBytes vs).sticky = s.sticky := rfl

@[simp] theorem State.writeBytes_ctrl (vs : List Byte) (s : State) : (s.writeBytes vs).ctrl = s.ctrl := rfl

@[simp] theorem State.writeBytes_line (vs : List Byte) (s : State) : (s.writeBytes vs).line = s.line.writeBytes s.cfg vs := rfl

@[simp] theorem State.writeBytes_busy (vs : List Byte) (s : State) : (s.writeBytes vs).busy = s.busy := rfl

@[simp] theorem State.writeBytes_host (vs : List Byte) (s : State) : (s.writeBytes vs).host = s.host := rfl

@[simp] theorem State.writeBytes_replies (vs : List Byte) (s : State) : (s.writeBytes vs).replies = s.replies := rfl

@[simp] theorem State.writeSlot_cfg (b : Bool) (s : State) : (s.writeSlot b).cfg = s.cfg := rfl

@[simp] theorem State.writeSlot_addr (b : Bool) (s : State) : (s.writeSlot b).addr = s.addr := rfl

@[simp] theorem State.writeSlot_ram (b : Bool) (s : State) : (s.writeSlot b).ram = s.ram := rfl

@[simp] theorem State.writeSlot_crc (b : Bool) (s : State) : (s.writeSlot b).crc = s.crc := rfl

@[simp] theorem State.writeSlot_data (b : Bool) (s : State) : (s.writeSlot b).data = s.data := rfl

@[simp] theorem State.writeSlot_reg (b : Bool) (s : State) : (s.writeSlot b).reg = s.reg := rfl

@[simp] theorem State.writeSlot_srom (b : Bool) (s : State) : (s.writeSlot b).srom = s.srom := rfl

@[simp] theorem State.writeSlot_lastd (b : Bool) (s : State) : (s.writeSlot b).lastd = s.lastd := rfl

@[simp] theorem State.writeSlot_mark (b : Bool) (s : State) : (s.writeSlot b).mark = s.mark := rfl

@[simp] theorem State.writeSlot_delay (b : Bool) (s : State) : (s.writeSlot b).delay = s.delay := rfl

@[simp] theorem State.writeSlot_stat (b : Bool) (s : State) : (s.writeSlot b).stat = s.stat := rfl

@[simp] theorem State.writeSlot_sticky (b : Bool) (s : State) : (s.writeSlot b).sticky = s.sticky := rfl

@[simp] theorem State.writeSlot_ctrl (b : Bool) (s : State) : (s.writeSlot b).ctrl = s.ctrl := rfl

@[simp] theorem State.writeSlot_line (b : Bool) (s : State) : (s.writeSlot b).line = s.line.writeSlot s.cfg b := rfl

@[simp] theorem State.writeSlot_busy (b : Bool) (s : State) : (s.writeSlot b).busy = s.busy := rfl

@[simp] theorem State.writeSlot_host (b : Bool) (s : State) : (s.writeSlot b).host = s.host := rfl

@[simp] theorem State.writeSlot_replies (b : Bool) (s : State) : (s.writeSlot b).replies = s.replies := rfl

/-! ## A bus reset (R76) -/

@[simp] theorem busReset_cfg (s : State) : (busReset s).cfg = s.cfg := rfl

@[simp] theorem busReset_addr (s : State) : (busReset s).addr = s.addr := rfl

@[simp] theorem busReset_ram (s : State) : (busReset s).ram = s.ram := rfl

@[simp] theorem busReset_crc (s : State) : (busReset s).crc = s.crc := rfl

@[simp] theorem busReset_data (s : State) : (busReset s).data = s.data := rfl

@[simp] theorem busReset_reg (s : State) : (busReset s).reg = s.reg := rfl

@[simp] theorem busReset_srom (s : State) : (busReset s).srom = s.srom := rfl

@[simp] theorem busReset_lastd (s : State) : (busReset s).lastd = s.lastd := rfl

@[simp] theorem busReset_mark (s : State) : (busReset s).mark = s.mark := rfl

@[simp] theorem busReset_delay (s : State) : (busReset s).delay = s.delay := rfl

@[simp] theorem busReset_sticky (s : State) : (busReset s).sticky = s.sticky := rfl

@[simp] theorem busReset_ctrl (s : State) : (busReset s).ctrl = s.ctrl := rfl

@[simp] theorem busReset_line (s : State) : (busReset s).line = (s.line.resetSlot s.cfg).2 := rfl

@[simp] theorem busReset_busy (s : State) : (busReset s).busy = s.busy := rfl

@[simp] theorem busReset_host (s : State) : (busReset s).host = s.host := rfl

@[simp] theorem busReset_replies (s : State) : (busReset s).replies = s.replies := rfl

@[simp] theorem busReset_bit (s : State) : (busReset s).stat.bit = s.stat.bit := rfl

@[simp] theorem busReset_pwrExt (s : State) : (busReset s).stat.pwrExt = s.stat.pwrExt := rfl

@[simp] theorem busReset_crcOk (s : State) : (busReset s).stat.crcOk = s.stat.crcOk := rfl

@[simp] theorem busReset_resOk (s : State) : (busReset s).stat.resOk = s.stat.resOk := rfl

@[simp] theorem busReset_srchDone (s : State) : (busReset s).stat.srchDone = s.stat.srchDone := rfl

@[simp] theorem busReset_err (s : State) : (busReset s).stat.err = s.stat.err := rfl

@[simp] theorem busReset_pres (s : State) : (busReset s).stat.pres = (s.line.resetSlot s.cfg).1 := rfl

/-! ## Hardware reset (R245) -/

@[simp] theorem hardReset_cfg (s : State) : (hardReset s).cfg = s.cfg := rfl

@[simp] theorem hardReset_addr (s : State) : (hardReset s).addr = State.reset.addr := rfl

@[simp] theorem hardReset_ram (s : State) : (hardReset s).ram = State.reset.ram := rfl

@[simp] theorem hardReset_crc (s : State) : (hardReset s).crc = State.reset.crc := rfl

@[simp] theorem hardReset_data (s : State) : (hardReset s).data = State.reset.data := rfl

@[simp] theorem hardReset_reg (s : State) : (hardReset s).reg = State.reset.reg := rfl

@[simp] theorem hardReset_srom (s : State) : (hardReset s).srom = State.reset.srom := rfl

@[simp] theorem hardReset_lastd (s : State) : (hardReset s).lastd = State.reset.lastd := rfl

@[simp] theorem hardReset_mark (s : State) : (hardReset s).mark = State.reset.mark := rfl

@[simp] theorem hardReset_delay (s : State) : (hardReset s).delay = State.reset.delay := rfl

@[simp] theorem hardReset_stat (s : State) : (hardReset s).stat = State.reset.stat := rfl

@[simp] theorem hardReset_sticky (s : State) : (hardReset s).sticky = State.reset.sticky := rfl

@[simp] theorem hardReset_ctrl (s : State) : (hardReset s).ctrl = State.reset.ctrl := rfl

@[simp] theorem hardReset_line (s : State) : (hardReset s).line = s.line.emit .rst := rfl

@[simp] theorem hardReset_busy (s : State) : (hardReset s).busy = State.reset.busy := rfl

@[simp] theorem hardReset_host (s : State) : (hardReset s).host = s.host := rfl

@[simp] theorem hardReset_replies (s : State) : (hardReset s).replies = s.replies := rfl

/-! ## The branch at a discrepancy (R146) -/

@[simp] theorem decideBranch_cfg (pos : Nat) (s : State) : (decideBranch pos s).cfg = s.cfg := by
  unfold decideBranch; split <;> [rfl; (split <;> [rfl; (split <;> rfl)])]

@[simp] theorem decideBranch_addr (pos : Nat) (s : State) : (decideBranch pos s).addr = s.addr := by
  unfold decideBranch; split <;> [rfl; (split <;> [rfl; (split <;> rfl)])]

@[simp] theorem decideBranch_ram (pos : Nat) (s : State) : (decideBranch pos s).ram = s.ram := by
  unfold decideBranch; split <;> [rfl; (split <;> [rfl; (split <;> rfl)])]

@[simp] theorem decideBranch_crc (pos : Nat) (s : State) : (decideBranch pos s).crc = s.crc := by
  unfold decideBranch; split <;> [rfl; (split <;> [rfl; (split <;> rfl)])]

@[simp] theorem decideBranch_data (pos : Nat) (s : State) : (decideBranch pos s).data = s.data := by
  unfold decideBranch; split <;> [rfl; (split <;> [rfl; (split <;> rfl)])]

@[simp] theorem decideBranch_reg (pos : Nat) (s : State) : (decideBranch pos s).reg = s.reg := by
  unfold decideBranch; split <;> [rfl; (split <;> [rfl; (split <;> rfl)])]

@[simp] theorem decideBranch_lastd (pos : Nat) (s : State) : (decideBranch pos s).lastd = s.lastd := by
  unfold decideBranch; split <;> [rfl; (split <;> [rfl; (split <;> rfl)])]

@[simp] theorem decideBranch_delay (pos : Nat) (s : State) : (decideBranch pos s).delay = s.delay := by
  unfold decideBranch; split <;> [rfl; (split <;> [rfl; (split <;> rfl)])]

@[simp] theorem decideBranch_stat (pos : Nat) (s : State) : (decideBranch pos s).stat = s.stat := by
  unfold decideBranch; split <;> [rfl; (split <;> [rfl; (split <;> rfl)])]

@[simp] theorem decideBranch_sticky (pos : Nat) (s : State) : (decideBranch pos s).sticky = s.sticky := by
  unfold decideBranch; split <;> [rfl; (split <;> [rfl; (split <;> rfl)])]

@[simp] theorem decideBranch_ctrl (pos : Nat) (s : State) : (decideBranch pos s).ctrl = s.ctrl := by
  unfold decideBranch; split <;> [rfl; (split <;> [rfl; (split <;> rfl)])]

@[simp] theorem decideBranch_line (pos : Nat) (s : State) : (decideBranch pos s).line = s.line := by
  unfold decideBranch; split <;> [rfl; (split <;> [rfl; (split <;> rfl)])]

@[simp] theorem decideBranch_busy (pos : Nat) (s : State) : (decideBranch pos s).busy = s.busy := by
  unfold decideBranch; split <;> [rfl; (split <;> [rfl; (split <;> rfl)])]

@[simp] theorem decideBranch_host (pos : Nat) (s : State) : (decideBranch pos s).host = s.host := by
  unfold decideBranch; split <;> [rfl; (split <;> [rfl; (split <;> rfl)])]

@[simp] theorem decideBranch_replies (pos : Nat) (s : State) : (decideBranch pos s).replies = s.replies := by
  unfold decideBranch; split <;> [rfl; (split <;> [rfl; (split <;> rfl)])]

end Sys2Proof.Machine
end

