-- ==== Sys2Proof/Laws/Commands.lean ====
section
/-! SUPPORT. What the shared operations of the commands can do: selection, the abort, the scratch-pad write, the power query. -/

namespace Sys2Proof.Machine

/-! ## Flow -/

@[simp] theorem Flow.andThen_go (s : State) (f : State → Flow) : (Flow.go s).andThen f = f s := rfl
@[simp] theorem Flow.andThen_aborted (s : State) (f : State → Flow) : (Flow.aborted s).andThen f = .aborted s := rfl
@[simp] theorem Flow.state_go (s : State) : (Flow.go s).state = s := rfl
@[simp] theorem Flow.state_aborted (s : State) : (Flow.aborted s).state = s := rfl

theorem Flow.andThen_assoc (f : Flow) (g h : State → Flow) :
    (f.andThen g).andThen h = f.andThen fun s => (g s).andThen h := by
  cases f <;> rfl

/-- A sequence that runs to its end, backwards: the first part did, and the rest from where it led. -/
theorem Flow.andThen_eq_go {f : Flow} {g : State → Flow} {t : State} (h : f.andThen g = .go t) :
    ∃ s, f = .go s ∧ g s = .go t := by
  cases f with
  | go s => exact ⟨s, rfl, h⟩
  | aborted s => cases h

/-- A property that the first part establishes and the rest carries on holds where the sequence ends. -/
theorem Flow.state_andThen {P : State → Prop} {f : Flow} {g : State → Flow}
    (ha : ∀ s, f = .aborted s → P s) (hg : ∀ s, f = .go s → P (g s).state) : P (f.andThen g).state := by
  cases f with
  | go s => exact hg s rfl
  | aborted s => exact ha s rfl

theorem command_eq_next {body : State → Flow} {s t : State} (h : command body s = .next t) :
    t = (body (prologue s)).state := by
  cases h; rfl

/-! ## `STICKY` (R19) -/

/-- An abort sets the flag of its code and no other. -/
theorem raise_stickyFlag (e : Err) (s : State) (k : Nat) (h1 : 1 ≤ k) (h7 : k ≤ 7) :
    (raise e s).stickyFlag k = (s.stickyFlag k || decide (e.code.toNat = k)) := by
  simp only [State.stickyFlag, raise, BitVec.getLsbD_or]
  congr 1
  rcases (by omega : k = 1 ∨ k = 2 ∨ k = 3 ∨ k = 4 ∨ k = 5 ∨ k = 6 ∨ k = 7) with rfl | rfl | rfl | rfl | rfl | rfl | rfl <;>
    cases e <;> rfl

/-- The host reads flag `k` at bit `k`. -/
theorem stickyWord_flag (s : State) (k : Nat) (h1 : 1 ≤ k) (h7 : k ≤ 7) :
    (stickyWord s.sticky).getLsbD k = s.stickyFlag k := by
  simp only [stickyWord, State.stickyFlag]
  erw [BitVec.getLsbD_append, BitVec.getLsbD_append]
  rw [if_neg (by omega), if_pos (by omega)]

/-! ## Bytes written, as events -/

theorem State.writeBytes_eq (vs : List Byte) (s : State) :
    s.writeBytes vs = { s with line := s.line.play (wireBytesOut s.cfg vs) } := by
  simp only [State.writeBytes, State.onLine, Line.writeBytes_eq]

theorem State.writeSlot_eq (b : Bool) (s : State) :
    s.writeSlot b = { s with line := s.line.play (wireWrite s.cfg b) } := by
  simp only [State.writeSlot, State.onLine, Line.writeSlot_eq]

/-! ## Selection (R76) -/

theorem resetOrAbort_present {s : State} (h : s.line.peek 0 = false) :
    resetOrAbort s = .go { s with stat.pres := true, line := s.line.play (wireReset s.cfg false) } := by
  simp [resetOrAbort, busReset, Line.resetSlot_eq, h]

theorem resetOrAbort_absent {s : State} (h : s.line.peek 0 = true) :
    resetOrAbort s = .aborted (afterNoPresence s) := by
  simp only [resetOrAbort, busReset, Line.resetSlot_eq, h, abort, raise, afterNoPresence, Err.stickyBit, Err.code]
  rfl

theorem matchRom_present {s : State} (h : s.line.peek 0 = false) :
    matchRom s = .go { s with stat.pres := true, line := s.line.play (wireMatchFrame s.cfg s.addr) } := by
  simp only [matchRom, resetOrAbort_present h, Flow.andThen_go, State.writeBytes_eq, wireMatchFrame, Line.play_append]
  rfl

theorem matchRom_absent {s : State} (h : s.line.peek 0 = true) : matchRom s = .aborted (afterNoPresence s) := by
  simp [matchRom, resetOrAbort_absent h]

theorem skipRom_present {s : State} (h : s.line.peek 0 = false) :
    skipRom s = .go { s with stat.pres := true, line := s.line.play (wireSkipFrame s.cfg) } := by
  simp only [skipRom, resetOrAbort_present h, Flow.andThen_go, State.writeBytes_eq, wireSkipFrame, Line.play_append]
  rfl

theorem skipRom_absent {s : State} (h : s.line.peek 0 = true) : skipRom s = .aborted (afterNoPresence s) := by
  simp [skipRom, resetOrAbort_absent h]

theorem select_present {s : State} (all : Bool) (h : s.line.peek 0 = false) :
    select all s = .go { s with stat.pres := true, line := s.line.play (wireSelectFrame s.cfg s.addr all) } := by
  cases all
  · exact matchRom_present h
  · exact skipRom_present h

theorem select_absent {s : State} (all : Bool) (h : s.line.peek 0 = true) :
    select all s = .aborted (afterNoPresence s) := by
  cases all
  · exact matchRom_absent h
  · exact skipRom_absent h

@[simp] theorem samplesOf_wireMatchFrame (c : Config) (a : RomAddr) : samplesOf (wireMatchFrame c a) = [false] := by
  simp [wireMatchFrame]

@[simp] theorem samplesOf_wireSkipFrame (c : Config) : samplesOf (wireSkipFrame c) = [false] := by
  simp [wireSkipFrame]

@[simp] theorem samplesOf_wireSelectFrame (c : Config) (a : RomAddr) (all : Bool) :
    samplesOf (wireSelectFrame c a all) = [false] := by
  cases all <;> simp [wireSelectFrame]

/-! ## The scratch-pad write and the power query -/

theorem writeScratch_present {s : State} (h : s.line.peek 0 = false) :
    writeScratch s = .go { s with
      stat.pres := true
      line := s.line.play (wireMatchFrame s.cfg s.addr ++ wireBytesOut s.cfg (scratchFrame s)) } := by
  simp only [writeScratch, matchRom_present h, Flow.andThen_go, State.writeBytes_eq, Line.play_append]
  rfl

theorem writeScratch_absent {s : State} (h : s.line.peek 0 = true) :
    writeScratch s = .aborted (afterNoPresence s) := by
  simp [writeScratch, matchRom_absent h]

theorem powerBit_eq (s : State) :
    powerBit s = (s.line.peek 0, { s with
      line := s.line.play (wireBytesOut s.cfg [0xB4] ++ wireRead s.cfg (s.line.peek 0)) }) := by
  simp [powerBit, State.writeBytes_eq, Line.readSlot_eq, Line.peek_play, Line.play_append, wireReadPowerSupply]

/-! ## The power phase (R184) -/

theorem powerPhase_eq (d : BitVec 16) (wait : Bool) (s : State) :
    powerPhase d wait s = { s with
      line := s.line.play (wirePower s.ctrl d wait)
      delay := if s.ctrl.parasite = true ∨ wait = true then 0 else d } := by
  unfold powerPhase wirePower
  cases s.ctrl.parasite <;> cases s.ctrl.pwrEn <;> cases wait <;> rfl

end Sys2Proof.Machine
end

