-- ==== Sys2Proof/Laws/Encoding.lean ====
section
/-! SUPPORT. The fields of a word put together by the encoder (spec/30_encoding.md R60), and what decoding makes of it. -/

namespace Sys2Proof

theorem commandWord_bit (op : Byte) (imm : BitVec 16) (all wait : Bool) (i : Nat) :
    (commandWord op imm all wait).getLsbD i =
      if i < 8 then op.getLsbD i else if i = 8 then all else if i = 9 then wait
      else if i < 16 then false else imm.getLsbD (i - 16) := by
  unfold commandWord
  erw [BitVec.getLsbD_append, BitVec.getLsbD_append, BitVec.getLsbD_append, BitVec.getLsbD_append]
  by_cases h8 : i < 8
  · simp [h8]
  by_cases h9 : i = 8
  · simp [h9]
  by_cases h10 : i = 9
  · simp [h10]
  have e1 : ¬ i - 8 < 1 := by omega
  have e2 : ¬ i - 8 - 1 < 1 := by omega
  simp only [h8, h9, h10, e1, e2, if_false]
  by_cases h16 : i < 16
  · rw [if_pos (by omega), if_pos h16]; simp
  · rw [if_neg (by omega), if_neg h16]
    congr 1

/-- A word from its fields, as the command rules write it. -/
theorem commandWord_or (op : Byte) (imm : BitVec 16) (all wait : Bool) :
    commandWord op imm all wait = op.setWidth 32 ||| (BitVec.ofBool all).setWidth 32 <<< 8 |||
      (BitVec.ofBool wait).setWidth 32 <<< 9 ||| imm.setWidth 32 <<< 16 := by
  apply BitVec.eq_of_getLsbD_eq
  intro i hi
  rw [commandWord_bit]
  simp only [BitVec.getLsbD_or, BitVec.getLsbD_shiftLeft, BitVec.getLsbD_setWidth, BitVec.getLsbD_ofBool]
  have high : ∀ {n : Nat} (v : BitVec n) (k : Nat), n ≤ k → v.getLsbD k = false :=
    fun v k hk => BitVec.getLsbD_of_ge v k hk
  split_ifs with h8 h9 h10 h16
  · simp [h8, hi, show i < 9 by omega, show i < 16 by omega]
  · subst h9; simp
  · subst h10; simp
  · simp [h16, high op i (by omega), show ¬ i - 8 = 0 by omega, show ¬ i - 9 = 0 by omega]
  · simp [hi, h16, high op i (by omega), show ¬ i - 8 = 0 by omega, show ¬ i - 9 = 0 by omega, show i - 16 < 32 by omega]

@[simp] theorem opField_commandWord (op : Byte) (imm : BitVec 16) (all wait : Bool) :
    opField (commandWord op imm all wait) = op := by
  apply BitVec.eq_of_getLsbD_eq
  intro i hi
  simp only [opField, BitVec.getLsbD_extractLsb', commandWord_bit]
  rw [Nat.zero_add, if_pos hi, decide_eq_true hi, Bool.true_and]

@[simp] theorem allField_commandWord (op : Byte) (imm : BitVec 16) (all wait : Bool) :
    allField (commandWord op imm all wait) = all := by
  show (commandWord op imm all wait).getLsbD 8 = all
  rw [commandWord_bit]
  rfl

@[simp] theorem waitField_commandWord (op : Byte) (imm : BitVec 16) (all wait : Bool) :
    waitField (commandWord op imm all wait) = wait := by
  show (commandWord op imm all wait).getLsbD 9 = wait
  rw [commandWord_bit]
  rfl

@[simp] theorem rsvField_commandWord (op : Byte) (imm : BitVec 16) (all wait : Bool) :
    rsvField (commandWord op imm all wait) = 0 := by
  apply BitVec.eq_of_getLsbD_eq
  intro i hi
  simp only [rsvField, BitVec.getLsbD_extractLsb', commandWord_bit]
  rw [if_neg (by omega), if_neg (by omega), if_neg (by omega), if_pos (by omega)]
  simp

@[simp] theorem immField_commandWord (op : Byte) (imm : BitVec 16) (all wait : Bool) :
    immField (commandWord op imm all wait) = imm := by
  apply BitVec.eq_of_getLsbD_eq
  intro i hi
  simp only [immField, BitVec.getLsbD_extractLsb', commandWord_bit]
  rw [if_neg (by omega), if_neg (by omega), if_neg (by omega), if_neg (by omega), decide_eq_true hi, Bool.true_and,
    show 16 + i - 16 = i by omega]

/-- A word is its fields put together. -/
theorem word_ext {w w' : Word} (hop : opField w = opField w') (hall : allField w = allField w')
    (hwait : waitField w = waitField w') (hrsv : rsvField w = rsvField w') (himm : immField w = immField w') :
    w = w' := by
  apply BitVec.eq_of_getLsbD_eq
  intro i hi
  by_cases h8 : i < 8
  · have := congrArg (fun x => x.getLsbD i) hop
    simpa [opField, h8] using this
  by_cases h9 : i = 8
  · subst h9; exact hall
  by_cases h10 : i = 9
  · subst h10; exact hwait
  by_cases h16 : i < 16
  · have h6 : i - 10 < 6 := by omega
    have := congrArg (fun x => x.getLsbD (i - 10)) hrsv
    simpa [rsvField, h6, show 10 + (i - 10) = i by omega] using this
  · have h6 : i - 16 < 16 := by omega
    have := congrArg (fun x => x.getLsbD (i - 16)) himm
    simpa [immField, h6, show 16 + (i - 16) = i by omega] using this

/-- The word whose `RSV` is 0, from its fields. -/
theorem commandWord_fields {w : Word} (hrsv : rsvField w = 0) :
    commandWord (opField w) (immField w) (allField w) (waitField w) = w :=
  word_ext (by simp) (by simp) (by simp) (by simp [hrsv]) (by simp)

/-- A word decodes exactly to the command of its operation's row, when the conditions (b) to (e) of R61 hold. -/
theorem decode_eq_ok {w : Word} {i : Instr} :
    decode w = .ok i ↔ ∃ r, opRow w = some r ∧ rsvField w = 0 ∧ (allField w = true → r.takesAll = true) ∧
      (waitField w = true → r.takesWait = true) ∧ immField w &&& ~~~r.immUsed = 0 ∧ r.instr = i := by
  unfold decode
  cases h : opRow w with
  | none => simp
  | some r =>
    obtain ⟨ta, tw, im, ins⟩ := r
    by_cases h1 : rsvField w = 0#6 <;> by_cases h4 : immField w &&& ~~~im = 0#16 <;>
      cases h2 : allField w <;> cases h3 : waitField w <;> cases ta <;> cases tw <;> simp [h1, h4]

/-- A word fits a row of the opcode table iff each of its fields does. -/
theorem fits_iff (r : TableRow) (w : Word) :
    r.Fits w ↔ opField w &&& opField r.mask = opField r.value ∧ (allField w && allField r.mask) = allField r.value ∧
      (waitField w && waitField r.mask) = waitField r.value ∧ rsvField w &&& rsvField r.mask = rsvField r.value ∧
      immField w &&& immField r.mask = immField r.value := by
  have hop : opField (w &&& r.mask) = opField w &&& opField r.mask := BitVec.extractLsb'_and
  have hall : allField (w &&& r.mask) = (allField w && allField r.mask) := BitVec.getLsbD_and
  have hwait : waitField (w &&& r.mask) = (waitField w && waitField r.mask) := BitVec.getLsbD_and
  have hrsv : rsvField (w &&& r.mask) = rsvField w &&& rsvField r.mask := BitVec.extractLsb'_and
  have himm : immField (w &&& r.mask) = immField w &&& immField r.mask := BitVec.extractLsb'_and
  rw [← hop, ← hall, ← hwait, ← hrsv, ← himm]
  constructor
  · intro h
    rw [show w &&& r.mask = r.value from h]
    exact ⟨rfl, rfl, rfl, rfl, rfl⟩
  · rintro ⟨h1, h2, h3, h4, h5⟩
    exact word_ext h1 h2 h3 h4 h5

theorem setWidth_masked (v : Byte) : v.setWidth 16 &&& ~~~(0x00FF : BitVec 16) = 0 := by
  revert v; decide +kernel

theorem setWidth_low (v : Byte) : (v.setWidth 16).extractLsb' 0 8 = v := by
  revert v; decide +kernel

end Sys2Proof
end

