-- ==== Sys2Proof/Laws/Search.lean ====
section
/-! SUPPORT. What a search can do (spec/43_search.md): the events of the transport, one lemma for each part of a descent, and one
that says everything a descent can do. -/

namespace Sys2Proof.Machine

/-! ## Events of the transport -/

/-- What every sequence of slots has: its critical windows are paired, its samples are those the environment supplies,
it supplies no power, and it leaves the pins as it found them if they were released. -/
structure SlotEvents (l : Line) (es : List Event) : Prop where
  paired : ∀ fs, critPaired false (es ++ fs) = critPaired false fs
  samples : samplesOf es = (List.range (samplesOf es).length).map l.peek
  noHigh : .driveHigh ∉ es
  noPower : .pwrOn ∉ es
  dqOe : l.dqOe = false → (l.play es).dqOe = false
  pwrOn : (l.play es).pwrOn = l.pwrOn
  crit : l.crit = false → (l.play es).crit = false

theorem SlotEvents.nil (l : Line) : SlotEvents l [] :=
  ⟨fun _ => rfl, rfl, by simp, by simp, id, rfl, id⟩

theorem SlotEvents.append {l : Line} {es fs : List Event} (h : SlotEvents l es) (k : SlotEvents (l.play es) fs) :
    SlotEvents l (es ++ fs) where
  paired gs := by rw [List.append_assoc, h.paired, k.paired]
  samples := by
    have hk := k.samples
    rw [samplesOf_append, List.length_append, List.range_add, List.map_append, ← h.samples, List.map_map]
    congr 1
    refine hk.trans (List.map_congr_left fun i _ => ?_)
    rw [Line.peek_play, Function.comp, Nat.add_comm]
  noHigh := by simp [h.noHigh, k.noHigh]
  noPower := by simp [h.noPower, k.noPower]
  dqOe hd := by rw [Line.play_append]; exact k.dqOe (h.dqOe hd)
  pwrOn := by rw [Line.play_append, k.pwrOn, h.pwrOn]
  crit hc := by rw [Line.play_append]; exact k.crit (h.crit hc)

theorem SlotEvents.wireReset (c : Config) (l : Line) : SlotEvents l (wireReset c (l.peek 0)) :=
  ⟨fun _ => rfl, rfl, by simp [Machine.wireReset], by simp [Machine.wireReset], fun _ => rfl, rfl, fun h => h⟩

theorem SlotEvents.wireWrite (c : Config) (b : Bool) (l : Line) : SlotEvents l (wireWrite c b) := by
  cases b <;>
    exact ⟨fun _ => rfl, rfl, by simp [Machine.wireWrite], by simp [Machine.wireWrite], fun _ => rfl, rfl, fun _ => rfl⟩

theorem SlotEvents.wireRead (c : Config) (l : Line) : SlotEvents l (wireRead c (l.peek 0)) :=
  ⟨fun _ => rfl, rfl, by simp [Machine.wireRead], by simp [Machine.wireRead], fun _ => rfl, rfl, fun _ => rfl⟩

theorem SlotEvents.writes (c : Config) (f : Nat → Bool) (ks : List Nat) (l : Line) :
    SlotEvents l (ks.flatMap fun i => Machine.wireWrite c (f i)) := by
  induction ks generalizing l with
  | nil => exact .nil l
  | cons k ks ih => exact (SlotEvents.wireWrite c (f k) l).append (ih _)

theorem SlotEvents.wireBytesOut (c : Config) (vs : List Byte) (l : Line) : SlotEvents l (wireBytesOut c vs) := by
  induction vs generalizing l with
  | nil => exact .nil l
  | cons v vs ih => exact (SlotEvents.writes c (fun i => v.getLsbD i) (List.range 8) l).append (ih _)

/-- `n` read slots, from the `k`-th sample to come on. -/
theorem SlotEvents.reads (c : Config) (n : Nat) (l : Line) :
    SlotEvents l ((List.range n).flatMap fun i => Machine.wireRead c (l.peek i)) := by
  induction n with
  | zero => exact .nil l
  | succ n ih =>
    rw [List.range_succ, List.flatMap_append]
    refine ih.append ?_
    have h := SlotEvents.wireRead c (l.play ((List.range n).flatMap fun i => Machine.wireRead c (l.peek i)))
    rw [Line.peek_play, samplesOf_reads, List.length_map, List.length_range, Nat.zero_add] at h
    simpa using h

theorem SlotEvents.wireByteIn (c : Config) (l : Line) : SlotEvents l (wireBytesIn c [l.peekByte 0]) := by
  have h := SlotEvents.reads c 8 l
  rwa [show wireBytesIn c [l.peekByte 0] = (List.range 8).flatMap fun i => Machine.wireRead c (l.peek i) from ?_]
  simp only [wireBytesIn, List.flatMap_cons, List.flatMap_nil, List.append_nil]
  apply List.flatMap_congr
  intro i hi
  rw [Line.peekByte_bit _ _ _ (by simpa using hi), Nat.zero_add]

theorem SlotEvents.wireBytesIn (c : Config) (n : Nat) (l : Line) :
    SlotEvents l (wireBytesIn c (l.peekBytes 0 n).toList) := by
  induction n with
  | zero => exact .nil l
  | succ n ih =>
    rw [Line.peekBytes_succ, Vector.toList_push, wireBytesIn_append]
    refine ih.append ?_
    have h := SlotEvents.wireByteIn c (l.play (Machine.wireBytesIn c (l.peekBytes 0 n).toList))
    rw [Line.peekByte_play, samplesOf_wireBytesIn_length] at h
    simpa using h

theorem SlotEvents.wireMatchFrame (c : Config) (a : RomAddr) (l : Line) (h : l.peek 0 = false) :
    SlotEvents l (wireMatchFrame c a) := by
  have h1 := SlotEvents.wireReset c l
  rw [h] at h1
  exact h1.append (.wireBytesOut c _ _)

theorem SlotEvents.wireSkipFrame (c : Config) (l : Line) (h : l.peek 0 = false) : SlotEvents l (wireSkipFrame c) := by
  have h1 := SlotEvents.wireReset c l
  rw [h] at h1
  exact h1.append (.wireBytesOut c _ _)

theorem SlotEvents.wireSelectFrame (c : Config) (a : RomAddr) (all : Bool) (l : Line) (h : l.peek 0 = false) :
    SlotEvents l (wireSelectFrame c a all) := by
  cases all
  · exact .wireMatchFrame c a l h
  · exact .wireSkipFrame c l h

/-! ## The parts of a descent -/

theorem descentHead_present {s : State} (h : s.line.peek 0 = false) :
    descentHead s = .go { s with
      stat.pres := true
      mark := 0
      line := s.line.play (wireReset s.cfg false ++ wireBytesOut s.cfg [0xF0]) } := by
  simp only [descentHead, resetOrAbort_present h, Flow.andThen_go, State.writeBytes_eq, Line.play_append]
  rfl

theorem descentHead_absent {s : State} (h : s.line.peek 0 = true) : descentHead s = .aborted (afterNoPresence s) := by
  simp [descentHead, resetOrAbort_absent h]

/-- A triplet whose pair is (1, 1). -/
theorem triplet_collision {pos : Nat} {s : State} (ha : s.line.peek 0 = true) (hb : s.line.peek 1 = true) :
    triplet pos s = abort .coll { s with line := s.line.play (wireRead s.cfg true ++ wireRead s.cfg true) } := by
  simp [triplet, Line.readSlot_eq, Line.peek_play, ha, hb, resolvePair, abort, Line.play_append]

/-- A triplet that every device still taking part answers alike. -/
theorem triplet_agreed {pos : Nat} {s : State} {a : Bool} (ha : s.line.peek 0 = a) (hb : s.line.peek 1 = !a) :
    triplet pos s = (Flow.go { s with
      srom := setRomBit s.srom pos a
      line := s.line.play (wireRead s.cfg a ++ wireRead s.cfg !a) }).andThen
        fun t => .go (t.writeSlot (romBit t.srom pos)) := by
  cases a <;> simp [triplet, Line.readSlot_eq, Line.peek_play, ha, hb, resolvePair, Line.play_append]

/-- A triplet at a discrepancy. -/
theorem triplet_discrepancy {pos : Nat} {s : State} (ha : s.line.peek 0 = false) (hb : s.line.peek 1 = false) :
    triplet pos s = (Flow.go (decideBranch pos { s with
      line := s.line.play (wireRead s.cfg false ++ wireRead s.cfg false) })).andThen
        fun t => .go (t.writeSlot (romBit t.srom pos)) := by
  simp [triplet, Line.readSlot_eq, Line.peek_play, ha, hb, resolvePair, Line.play_append]

/-- The branch at a discrepancy changes `SROM` and the mark, and the mark to this position only. -/
theorem decideBranch_shape (pos : Nat) (s : State) :
    ∃ x m, decideBranch pos s = { s with srom := x, mark := m } ∧ (m = s.mark ∨ m = BitVec.ofNat 7 pos) := by
  unfold decideBranch
  split
  · exact ⟨_, _, rfl, .inl rfl⟩
  · split
    · exact ⟨_, _, rfl, .inr rfl⟩
    · split
      · exact ⟨s.srom, s.mark, rfl, .inl rfl⟩
      · exact ⟨s.srom, _, rfl, .inr rfl⟩

/-- Everything a triplet can do. -/
theorem triplet_spec (pos : Nat) (s : State) :
    ∃ x m es, SlotEvents s.line es ∧ (m = s.mark ∨ m = BitVec.ofNat 7 pos) ∧
      (triplet pos s = .go { s with srom := x, mark := m, line := s.line.play es } ∨
        triplet pos s = abort .coll { s with srom := x, mark := m, line := s.line.play es }) := by
  have two : ∀ a b, s.line.peek 0 = a → s.line.peek 1 = b →
      SlotEvents s.line (wireRead s.cfg a ++ wireRead s.cfg b) := by
    rintro a b rfl hb
    have h := SlotEvents.wireRead s.cfg (s.line.play (wireRead s.cfg (s.line.peek 0)))
    rw [Line.peek_play, samplesOf_wireRead] at h
    exact (SlotEvents.wireRead s.cfg s.line).append (hb ▸ h)
  rcases ha : s.line.peek 0 <;> rcases hb : s.line.peek 1
  · obtain ⟨x, m, hd, hm⟩ := decideBranch_shape pos
      { s with line := s.line.play (wireRead s.cfg false ++ wireRead s.cfg false) }
    refine ⟨x, m, _, (two _ _ ha hb).append (.wireWrite s.cfg (romBit x pos) _), hm, .inl ?_⟩
    rw [triplet_discrepancy ha hb, Flow.andThen_go, hd, State.writeSlot_eq, Line.play_append]
    rfl
  · refine ⟨setRomBit s.srom pos false, s.mark, _,
      (two _ _ ha hb).append (.wireWrite s.cfg (romBit (setRomBit s.srom pos false) pos) _), .inl rfl, .inl ?_⟩
    rw [triplet_agreed ha hb, Flow.andThen_go, State.writeSlot_eq, Line.play_append]
    rfl
  · refine ⟨setRomBit s.srom pos true, s.mark, _,
      (two _ _ ha hb).append (.wireWrite s.cfg (romBit (setRomBit s.srom pos true) pos) _), .inl rfl, .inl ?_⟩
    rw [triplet_agreed ha hb, Flow.andThen_go, State.writeSlot_eq, Line.play_append]
    rfl
  · exact ⟨s.srom, s.mark, _, two _ _ ha hb, .inl rfl, .inr (triplet_collision ha hb)⟩

/-- Everything the triplets of a list of positions can do. -/
theorem triplets_spec (ks : List Nat) (s : State) :
    ∃ x m es, SlotEvents s.line es ∧ (m = s.mark ∨ ∃ k ∈ ks, m = BitVec.ofNat 7 k) ∧
      (Flow.forEach triplet ks s = .go { s with srom := x, mark := m, line := s.line.play es } ∨
        Flow.forEach triplet ks s = abort .coll { s with srom := x, mark := m, line := s.line.play es }) := by
  induction ks generalizing s with
  | nil => exact ⟨s.srom, s.mark, [], .nil _, .inl rfl, .inl rfl⟩
  | cons k ks ih =>
    obtain ⟨x, m, es, he, hm, h | h⟩ := triplet_spec k s
    · obtain ⟨x', m', es', he', hm', h'⟩ := ih { s with srom := x, mark := m, line := s.line.play es }
      refine ⟨x', m', es ++ es', he.append he', ?_, ?_⟩
      · rcases hm' with rfl | hm'
        · rcases hm with rfl | rfl
          · exact .inl rfl
          · exact .inr ⟨k, by simp, rfl⟩
        · obtain ⟨j, hj, rfl⟩ := hm'
          exact .inr ⟨j, by simp [hj], rfl⟩
      · simpa only [Flow.forEach, h, Flow.andThen_go, Line.play_append] using h'
    · exact ⟨x, m, es, he, hm.imp_right fun hm => ⟨k, by simp, hm⟩, .inr (by simp only [Flow.forEach, h]; rfl)⟩

/-! ## A descent -/

/-- How a descent can end, for the address it led to. -/
inductive DescentEnd (s : State) (x : RomAddr) (m : BitVec 7) (l : Line) : Flow → Prop where
  /-- No presence. -/
  | noPresence : DescentEnd s x m l (abort .noPres { s with stat.pres := false, line := l })
  /-- The pair (1, 1). -/
  | collision : DescentEnd s x m l (abort .coll { s with stat.pres := true, srom := x, mark := m, line := l })
  /-- The address is not valid. -/
  | checksum (h : ¬ ValidRom x) : DescentEnd s x m l
      (abort .crc { s with stat.pres := true, srom := x, mark := m, line := l, crc := romChecksum x })
  /-- The address is valid and new, the registry full. -/
  | overflow (h : ValidRom x) (hx : x ∉ s.reg) (hn : s.reg.length = s.cfg.nDev) : DescentEnd s x m l
      (abort .regOvf { s with stat.pres := true, srom := x, mark := m, line := l, crc := romChecksum x })
  /-- The address is in the registry already. -/
  | known (h : ValidRom x) (hx : x ∈ s.reg) : DescentEnd s x m l (.go
      { s with stat.pres := true, srom := x, mark := m, line := l, crc := romChecksum x, lastd := m })
  /-- The address is registered. -/
  | found (h : ValidRom x) (hx : x ∉ s.reg) (hn : s.reg.length ≠ s.cfg.nDev) : DescentEnd s x m l (.go
      { s with
        stat.pres := true, srom := x, mark := m, line := l, crc := romChecksum x, lastd := m, reg := s.reg ++ [x] })

/-- Everything a descent can do. -/
theorem descent_spec (s : State) :
    ∃ x m es, SlotEvents s.line es ∧ m.toNat ≤ 64 ∧ DescentEnd s x m (s.line.play es) (descent s) := by
  rcases hp : s.line.peek 0
  · have h1 := SlotEvents.wireReset s.cfg s.line
    rw [hp] at h1
    have h2 := h1.append (.wireBytesOut s.cfg [0xF0] _)
    obtain ⟨x, m, es, he, hm, h⟩ := triplets_spec (List.range' 1 64)
      { s with stat.pres := true, mark := 0, line := s.line.play (wireReset s.cfg false ++ wireBytesOut s.cfg [0xF0]) }
    have hm64 : m.toNat ≤ 64 := by
      rcases hm with rfl | ⟨k, hk, rfl⟩
      · exact Nat.zero_le _
      · have := List.mem_range'_1.1 hk
        rw [BitVec.toNat_ofNat]
        omega
    refine ⟨x, m, _, h2.append he, hm64, ?_⟩
    rw [Line.play_append]
    simp only [descent, descentHead_present hp, Flow.andThen_go]
    rcases h with h | h
    · rw [h]
      simp only [Flow.andThen_go, validate]
      by_cases hv : romChecksum x = x[7]
      · by_cases hx : x ∈ s.reg
        · simpa [hv, register, hx] using DescentEnd.known hv hx
        · by_cases hn : s.reg.length = s.cfg.nDev
          · simpa [hv, register, hx, hn, abort] using DescentEnd.overflow hv hx hn
          · simpa [hv, register, hx, hn] using DescentEnd.found hv hx hn
      · simpa [hv, abort] using DescentEnd.checksum hv
    · rw [h]
      exact .collision
  · have h1 := SlotEvents.wireReset s.cfg s.line
    rw [hp] at h1
    refine ⟨s.srom, 0, _, h1, Nat.zero_le _, ?_⟩
    have : descent s = .aborted (afterNoPresence s) := by simp [descent, descentHead_absent hp]
    rw [this]
    exact .noPresence

/-! ## A pass -/

/-- A property that every turn keeps holds wherever a pass stands. -/
theorem runPass_keeps {P : State → Prop} (turn : ∀ s, P s → P (passTurn s)) (n : Nat) {s : State} (h : P s) :
    P (runPass n s) := by
  induction n generalizing s with
  | zero => exact h
  | succ n ih =>
    rw [runPass]
    split
    · exact ih (turn s h)
    · exact turn s h

/-- A property that holds after every turn, however it starts, holds after one turn or more. -/
theorem runPass_last {P : State → Prop} (n : Nat) {s : State} (h : P (passTurn s))
    (turn : ∀ s, s.busy = true → P s → P (passTurn s)) : P (runPass (n + 1) s) := by
  induction n generalizing s with
  | zero =>
    simp only [runPass]
    split <;> exact h
  | succ n ih =>
    rw [runPass]
    split
    · next hb => exact ih (turn _ hb h)
    · exact h

end Sys2Proof.Machine
end

