-- ==== Sys2Proof/Laws/HostPort.lean ====
section
/-! SUPPORT. What the host port does (spec/20_memory.md): the bytes of a host word, what a write to a register leaves, which step
a move gives; and what the byte arrays of a command become. -/

namespace Sys2Proof.Machine

/-! ## Packing (R50) -/

/-- Byte `k` of a host word made of four bytes. -/
theorem packWord_byte (b0 b1 b2 b3 : Byte) (k : Nat) (h : k < 4) :
    (packWord b0 b1 b2 b3).extractLsb' (8 * k) 8 = [b0, b1, b2, b3][k] := by
  rcases (by omega : k = 0 ∨ k = 1 ∨ k = 2 ∨ k = 3) with rfl | rfl | rfl | rfl
  all_goals
    apply BitVec.eq_of_getLsbD_eq
    intro i hi
    rw [BitVec.getLsbD_extractLsb']
    simp only [hi, decide_true, Bool.true_and, packWord]
  · erw [BitVec.getLsbD_append]
    simp [hi]
  · erw [BitVec.getLsbD_append, BitVec.getLsbD_append]
    simp [hi]
  · erw [BitVec.getLsbD_append, BitVec.getLsbD_append, BitVec.getLsbD_append]
    simp only [Nat.reduceMul, List.getElem_cons_succ, List.getElem_cons_zero]
    rw [if_neg (by omega), if_neg (by omega), if_pos (by omega), show 16 + i - 8 - 8 = i by omega]
  · erw [BitVec.getLsbD_append, BitVec.getLsbD_append, BitVec.getLsbD_append]
    simp only [Nat.reduceMul, List.getElem_cons_succ, List.getElem_cons_zero]
    rw [if_neg (by omega), if_neg (by omega), if_neg (by omega), show 24 + i - 8 - 8 - 8 = i by omega]

/-! ## Byte arrays written -/

theorem writeFour_addr_low (a : RomAddr) (v : Word) : writeFour a 0 v =
    #v[v.extractLsb' 0 8, v.extractLsb' 8 8, v.extractLsb' 16 8, v.extractLsb' 24 8, a[4], a[5], a[6], a[7]] := by
  ext i hi : 1
  rcases i with _ | _ | _ | _ | _ | _ | _ | _ | i <;>
    first | (simp [writeFour, wordByte]; done) | omega

theorem writeFour_addr_high (a : RomAddr) (v : Word) : writeFour a 4 v =
    #v[a[0], a[1], a[2], a[3], v.extractLsb' 0 8, v.extractLsb' 8 8, v.extractLsb' 16 8, v.extractLsb' 24 8] := by
  ext i hi : 1
  rcases i with _ | _ | _ | _ | _ | _ | _ | _ | i <;>
    first | (simp [writeFour, wordByte]; done) | omega

theorem writeFour_ram_low (a : ScratchPad) (v : Word) : writeFour a 0 v =
    #v[v.extractLsb' 0 8, v.extractLsb' 8 8, v.extractLsb' 16 8, v.extractLsb' 24 8, a[4], a[5], a[6], a[7], a[8]] := by
  ext i hi : 1
  rcases i with _ | _ | _ | _ | _ | _ | _ | _ | _ | i <;>
    first | (simp [writeFour, wordByte]; done) | omega

theorem writeFour_ram_high (a : ScratchPad) (v : Word) : writeFour a 4 v =
    #v[a[0], a[1], a[2], a[3], v.extractLsb' 0 8, v.extractLsb' 8 8, v.extractLsb' 16 8, v.extractLsb' 24 8, a[8]] := by
  ext i hi : 1
  rcases i with _ | _ | _ | _ | _ | _ | _ | _ | _ | i <;>
    first | (simp [writeFour, wordByte]; done) | omega

theorem ram_set_last (a : ScratchPad) (x : Byte) :
    a.set 8 x = #v[a[0], a[1], a[2], a[3], a[4], a[5], a[6], a[7], x] := by
  ext i hi : 1
  rcases i with _ | _ | _ | _ | _ | _ | _ | _ | _ | i <;> first | (simp; done) | omega

/-- What `WRSP` makes of the image. -/
theorem ram_set_word (a : ScratchPad) (x y : Byte) :
    (a.set 2 x).set 3 y = #v[a[0], a[1], x, y, a[4], a[5], a[6], a[7], a[8]] := by
  ext i hi : 1
  rcases i with _ | _ | _ | _ | _ | _ | _ | _ | _ | i <;> first | (simp; done) | omega

/-- What `SETRES` makes of the image. -/
theorem ram_set_config (a : ScratchPad) (x : Byte) :
    a.set 4 x = #v[a[0], a[1], a[2], a[3], x, a[5], a[6], a[7], a[8]] := by
  ext i hi : 1
  rcases i with _ | _ | _ | _ | _ | _ | _ | _ | _ | i <;> first | (simp; done) | omega

/-! ## Operands -/

theorem hasConfigReg_iff (family : Byte) :
    hasConfigReg family = true ↔ family = 0x10 ∨ family = 0x28 ∨ family = 0x22 := by
  simp [hasConfigReg, or_assoc]

theorem resolutionOk_iff (bits : Nat) : resolutionOk bits = true ↔ 9 ≤ bits ∧ bits ≤ 12 := by
  simp [resolutionOk]

/-! ## Which step a move gives -/

theorem step_of_move {s : State} {m : HostMove} {rest : List HostMove} (hb : s.busy = false) (hh : s.host = m :: rest) :
    step s = hostMove m { s with host := rest } := by
  simp [step, hb, nextMove, hh]

theorem step_of_write {s : State} {n : RegNo} {v : Word} {rest : List HostMove} (hb : s.busy = false)
    (hh : s.host = .write n v :: rest) (hn : n ≠ 0) : step s = .next (regWrite n v { s with host := rest }) := by
  rw [step_of_move hb hh]
  exact if_neg hn

theorem step_of_word {s : State} {w : Word} {rest : List HostMove} (hb : s.busy = false)
    (hh : s.host = .write 0 w :: rest) : step s = runWord w { s with host := rest } := by
  rw [step_of_move hb hh]
  simp [hostMove]

theorem step_of_busy {s : State} (hb : s.busy = true) : step s = whileBusy s := by
  simp [step, hb]

/-! ## A pass under way -/

/-- A step that continues a pass runs it on, and does nothing else. -/
theorem PassGoesOn.eq {s t : State} (h : PassGoesOn s t) : t = continuePass s := by
  obtain ⟨hb, hr, hs⟩ := h
  rw [step_of_busy hb] at hs
  unfold whileBusy at hs
  split at hs
  · next rest he => exact absurd he (hr rest)
  · exact (Host.Outcome.next.inj hs).symm

/-- What follows a state by a command: its execution or, for `FINDALL`, its pass run on. -/
theorem Advances.cases {i : Instr} {s t : State} (h : Advances i s t) :
    exec i s = .next t ∨ (i = .findall ∧ s.busy = true ∧ t = continuePass s) :=
  h.imp_right fun ⟨hi, hp⟩ => ⟨hi, hp.1, hp.eq⟩

/-- What a turn of a pass leaves alone. -/
theorem passTurn_frame (s : State) :
    (passTurn s).cfg = s.cfg ∧ (passTurn s).addr = s.addr ∧ (passTurn s).ram = s.ram ∧ (passTurn s).data = s.data ∧
      (passTurn s).delay = s.delay ∧ (passTurn s).ctrl = s.ctrl ∧ (passTurn s).host = s.host ∧
      (passTurn s).replies = s.replies := by
  obtain ⟨x, m, es, -, -, h⟩ := descent_spec s
  generalize s.line.play es = l at h
  unfold passTurn
  generalize descent s = f at h ⊢
  cases h <;> simp only [abort] <;> (try split) <;> simp

theorem continuePass_frame (s : State) :
    (continuePass s).cfg = s.cfg ∧ (continuePass s).addr = s.addr ∧ (continuePass s).ram = s.ram ∧
      (continuePass s).data = s.data ∧ (continuePass s).delay = s.delay ∧ (continuePass s).ctrl = s.ctrl ∧
      (continuePass s).host = s.host ∧ (continuePass s).replies = s.replies := by
  refine runPass_keeps (P := fun t => t.cfg = s.cfg ∧ t.addr = s.addr ∧ t.ram = s.ram ∧ t.data = s.data ∧
    t.delay = s.delay ∧ t.ctrl = s.ctrl ∧ t.host = s.host ∧ t.replies = s.replies) ?_ _
    ⟨rfl, rfl, rfl, rfl, rfl, rfl, rfl, rfl⟩
  rintro t ⟨h1, h2, h3, h4, h5, h6, h7, h8⟩
  obtain ⟨k1, k2, k3, k4, k5, k6, k7, k8⟩ := passTurn_frame t
  exact ⟨k1.trans h1, k2.trans h2, k3.trans h3, k4.trans h4, k5.trans h5, k6.trans h6, k7.trans h7, k8.trans h8⟩

/-- All a pass does at the pins is a sequence of slots. -/
theorem continuePass_events (s : State) :
    ∃ es, SlotEvents s.line es ∧ (continuePass s).line = s.line.play es := by
  refine runPass_keeps (P := fun t => ∃ es, SlotEvents s.line es ∧ t.line = s.line.play es) ?_ _ ⟨[], .nil _, rfl⟩
  rintro t ⟨es, he, hl⟩
  obtain ⟨x, m, fs, hf, -, h⟩ := descent_spec t
  rw [hl] at hf h
  refine ⟨es ++ fs, he.append hf, ?_⟩
  rw [Line.play_append]
  generalize (s.line.play es).play fs = l at h
  unfold passTurn
  generalize descent t = f at h ⊢
  cases h <;> simp only [abort] <;> (try split) <;> simp

end Sys2Proof.Machine
end

