-- ==== Sys2Proof/Laws/PerInstr.lean ====
section
/-! SUPPORT. One lemma per command: the word of a well-formed command fits the command's row of spec/opcode_table.json. -/

/-- What the family says of a command: its word is one of its row's words (R61). -/
def Sys2Proof.Laws.EncodesInRow.Statement (i : Sys2Proof.Instr) : Prop :=
  i.wf = true → i.tableRow.Fits (Sys2Proof.encode i)

namespace Sys2Proof.Laws.EncodesInRow

open Sys2Proof

/-- The word of an operation that uses `IMM[7:0]` fits the row of that operation. -/
theorem fits_low_byte (op v : Byte) (value : Word) (hop : op = opField value)
    (hv : allField value = false ∧ waitField value = false ∧ rsvField value = 0 ∧ immField value = 0) :
    TableRow.Fits ⟨0xFF00FFFF, value⟩ (commandWord op (v.setWidth 16) false false) := by
  rw [fits_iff, hv.1, hv.2.1, hv.2.2.1, hv.2.2.2, ← hop]
  simp only [opField_commandWord, allField_commandWord, waitField_commandWord, rsvField_commandWord,
    immField_commandWord]
  refine ⟨?_, rfl, rfl, by decide, ?_⟩
  · exact BitVec.and_allOnes
  · revert v
    decide +kernel

theorem nop : Statement Instr.nop := fun _ => by decide

theorem reset : Statement Instr.reset := fun _ => by decide

theorem wbit (b : Bool) : Statement (Instr.wbit b) := fun _ => by cases b <;> decide

theorem rbit : Statement Instr.rbit := fun _ => by decide

theorem wbyte (v : Byte) : Statement (Instr.wbyte v) :=
  fun _ => fits_low_byte _ _ _ rfl (by decide)

theorem rbyte : Statement Instr.rbyte := fun _ => by decide

theorem crci (seed : Byte) : Statement (Instr.crci seed) :=
  fun _ => fits_low_byte _ _ _ rfl (by decide)

theorem crcb (byte : Byte) : Statement (Instr.crcb byte) :=
  fun _ => fits_low_byte _ _ _ rfl (by decide)

theorem crcd : Statement Instr.crcd := fun _ => by decide

theorem crcrom : Statement Instr.crcrom := fun _ => by decide

theorem crcram : Statement Instr.crcram := fun _ => by decide

theorem matchrom : Statement Instr.matchrom := fun _ => by decide

theorem skip : Statement Instr.skip := fun _ => by decide

theorem rdrom : Statement Instr.rdrom := fun _ => by decide

theorem findall : Statement Instr.findall := fun _ => by decide

theorem ldaddr (index : Nat) : Statement (Instr.ldaddr index) :=
  fun _ => fits_low_byte _ _ _ rfl (by decide)

theorem clrreg : Statement Instr.clrreg := fun _ => by decide

theorem rdsp : Statement Instr.rdsp := fun _ => by decide

theorem wrsp (word : BitVec 16) : Statement (Instr.wrsp word) :=
  fun _ => by
    show TableRow.Fits ⟨0x0000FFFF, 0x00000031⟩ _
    rw [fits_iff]
    simp only [encode, opField_commandWord, allField_commandWord, waitField_commandWord, rsvField_commandWord,
      immField_commandWord]
    exact ⟨by decide, by decide, by decide, by decide, BitVec.and_zero (x := word)⟩

theorem pwrq (all : Bool) : Statement (Instr.pwrq all) := fun _ => by cases all <;> decide

theorem convt (all wait : Bool) : Statement (Instr.convt all wait) :=
  fun _ => by cases all <;> cases wait <;> decide

theorem setres (bits : Nat) : Statement (Instr.setres bits) :=
  fun _ => fits_low_byte _ _ _ rfl (by decide)

theorem init : Statement Instr.init := fun _ => by decide

end Sys2Proof.Laws.EncodesInRow
end

