-- ==== Sys2Proof/Tests/Slice0.lean ====
section
/-! SUPPORT. The model's own tests. Expected values come from the spec: the words from the encodings of spec/30_encoding.md, the
results from the examples of the command rules and from spec/95_test_vectors.md. The witnesses at the end meet the hypotheses of
the statements. -/

namespace Sys2Proof.Machine.Tests

open Sys2Proof Sys2Proof.Machine Host

/-! ## Helpers -/

/-- Addresses A and B of spec/95_test_vectors.md. -/
def addrA : RomAddr := #v[0x28, 0x62, 0x24, 0xC7, 0x03, 0x00, 0x00, 0x0F]
def addrB : RomAddr := #v[0x28, 0x63, 0x24, 0xC7, 0x03, 0x00, 0x00, 0x38]

/-- The scratch-pad of the examples of R117, R166, R173. -/
def padX : ScratchPad := #v[0x90, 0x01, 0x4B, 0x46, 0x7F, 0xFF, 0x0C, 0x10, 0x33]

/-- The state after reset with these samples to come. -/
def onBus (bus : List Bool) : State := { State.reset with line := { Line.reset with bus := bus } }

/-- The bits of bytes in the order of the wire (R48, R49). -/
def bitsOf (vs : List Byte) : List Bool := vs.flatMap fun v => (List.range 8).map v.getLsbD

/-- The next state of a step. -/
def nextOf : Outcome State Fault Refusal → Option State
  | .next t => some t
  | .fault _ => none
  | .refused _ => none

/-- What a field of the state is after the host has written this word to `CMD`. -/
def after {α : Type} (w : Nat) (s : State) (f : State → α) : Option α := (nextOf (step (s.withFetchWord 32 w))).map f

/-- The events of the command, oldest first. -/
def events (s : State) : List Event := s.line.trace.reverse

/-! ## Well-formedness: the operand too large for `IMM[7:0]` is refused (R63) -/

theorem test_wf_refuses_ldaddr_256 : (Instr.ldaddr 256).wf = false ∧ (Instr.ldaddr 255).wf = true := by decide
theorem test_wf_refuses_setres_256 : (Instr.setres 256).wf = false ∧ (Instr.setres 255).wf = true := by decide

/-! ## Decoding: every command, from its word (R64, and the encoding line of each command rule) -/

theorem test_decode_nop : decode 0x00000000 = .ok .nop := by decide
theorem test_decode_reset : decode 0x00000001 = .ok .reset := by decide
theorem test_decode_wbit : decode 0x00000002 = .ok (.wbit false) ∧ decode 0x00010002 = .ok (.wbit true) := by decide
theorem test_decode_rbit : decode 0x00000003 = .ok .rbit := by decide
theorem test_decode_wbyte : decode 0x00CC0004 = .ok (.wbyte 0xCC) := by decide
theorem test_decode_rbyte : decode 0x00000005 = .ok .rbyte := by decide
theorem test_decode_crci : decode 0x00A50010 = .ok (.crci 0xA5) := by decide
theorem test_decode_crcb : decode 0x00280011 = .ok (.crcb 0x28) := by decide
theorem test_decode_crcd : decode 0x00000012 = .ok .crcd := by decide
theorem test_decode_crcrom : decode 0x00000013 = .ok .crcrom := by decide
theorem test_decode_crcram : decode 0x00000014 = .ok .crcram := by decide
theorem test_decode_match : decode 0x00000020 = .ok .matchrom := by decide
theorem test_decode_skip : decode 0x00000021 = .ok .skip := by decide
theorem test_decode_rdrom : decode 0x00000022 = .ok .rdrom := by decide
theorem test_decode_findall : decode 0x00000023 = .ok .findall := by decide
theorem test_decode_ldaddr : decode 0x00FE0024 = .ok (.ldaddr 254) := by decide
theorem test_decode_clrreg : decode 0x00000025 = .ok .clrreg := by decide
theorem test_decode_rdsp : decode 0x00000030 = .ok .rdsp := by decide
theorem test_decode_wrsp : decode 0x4B460031 = .ok (.wrsp 0x4B46) := by decide
theorem test_decode_pwrq : decode 0x00000032 = .ok (.pwrq false) ∧ decode 0x00000132 = .ok (.pwrq true) := by decide
theorem test_decode_convt : decode 0x00000033 = .ok (.convt false false) ∧
    decode 0x00000133 = .ok (.convt true false) ∧ decode 0x00000233 = .ok (.convt false true) ∧
    decode 0x00000333 = .ok (.convt true true) := by decide
theorem test_decode_setres : decode 0x000C0034 = .ok (.setres 12) := by decide
theorem test_decode_init : decode 0x0000003F = .ok .init := by decide

/-! ## Words that are not legal, one for each condition of R61 -/

theorem test_illegal_op : decode 0x00000006 = .error .unassignedOp ∧ decode 0x000000FF = .error .unassignedOp := by
  decide
theorem test_illegal_rsv : decode 0x00000400 = .error .reservedBits ∧ decode 0x00008001 = .error .reservedBits := by
  decide
theorem test_illegal_all : decode 0x00000130 = .error .allNotTaken := by decide
theorem test_illegal_wait : decode 0x00000232 = .error .waitNotTaken := by decide
theorem test_illegal_imm : decode 0x00020002 = .error .immBitsNotUsed ∧ decode 0x01000004 = .error .immBitsNotUsed ∧
    decode 0x00010000 = .error .immBitsNotUsed := by decide
theorem test_table_word_is_masked : decodeTableWord 32 0x00010002 = some (.wbit true) ∧
    decodeTableWord 8 0x00010002 = some (.wbit false) ∧ decodeTableWord 32 0x00000006 = none := by decide

/-! ## Commands -/

/-- R192: `ERR` = 3 before, `NOP`: `ERR` = 0, `STICKY` unchanged. -/
theorem test_nop : after 0x00000000 { State.reset with stat.err := .crc, sticky := 0x04 }
    (fun t => (t.stat.err, stickyWord t.sticky, t.line.trace)) = some (.none, 0x08, []) := by decide

/-- R95, the example. -/
theorem test_reset : after 0x00000001 (onBus [false]) (fun t => (t.stat.pres, events t)) =
    some (true, [.driveLow, .wait 480, .release, .wait 70, .sample false, .wait 410]) := by decide

/-- R95, R216: no presence is a result, not an error. -/
theorem test_reset_without_presence : after 0x00000001 { onBus [true] with stat.pres := true }
    (fun t => (t.stat.pres, t.stat.err, t.sticky)) = some (false, .none, 0) := by decide

/-- R96, the example. -/
theorem test_wbit_one : after 0x00010002 State.reset events =
    some [.critEnter, .driveLow, .wait 3, .release, .critExit, .wait 55] := by decide

/-- R92, the write-0 slot. -/
theorem test_wbit_zero : after 0x00000002 State.reset events =
    some [.critEnter, .driveLow, .wait 3, .wait 60, .release, .critExit, .wait 5] := by decide

/-- R97, the example. -/
theorem test_rbit : after 0x00000003 { onBus [false] with stat.bit := true } (fun t => (t.stat.bit, events t)) =
    some (false, [.critEnter, .driveLow, .wait 3, .release, .wait 3, .sample false, .critExit, .wait 45]) := by decide

/-- R98: `WBYTE 0xCC` sends 0,0,1,1,0,0,1,1 and takes 504 ticks. -/
theorem test_wbyte : after 0x00CC0004 State.reset (fun t => (ticks (events t), events t)) =
    some (504, [false, false, true, true, false, false, true, true].flatMap (wireWrite .spec)) := by decide

/-- R99, the example. -/
theorem test_rbyte : after 0x00000005 (onBus [true, false, false, false, false, false, false, false])
    (fun t => (t.data, t.stat.bit, t.line.bus)) = some (0x01, false, []) := by decide

theorem test_crci : after 0x00A50010 State.reset (fun t => t.crc) = some 0xA5 := by decide

/-- R114, the example. -/
theorem test_crcb : after 0x00280011 State.reset (fun t => t.crc) = some 0xE1 := by decide

/-- R115, the example. -/
theorem test_crcd : after 0x00000012 { State.reset with crc := 0xE1, data := 0x62 } (fun t => (t.crc, t.data)) =
    some (0x6E, 0x62) := by decide

/-- R116, the example. -/
theorem test_crcrom : after 0x00000013 { State.reset with addr := addrA, crc := 0x55 }
    (fun t => (t.crc, t.stat.crcOk)) = some (0x0F, true) := by decide +kernel

/-- R117, the example. -/
theorem test_crcram : after 0x00000014 { State.reset with ram := padX } (fun t => (t.crc, t.stat.crcOk)) =
    some (0x33, true) := by decide +kernel

/-- R117: an image of all ones fails the check. -/
theorem test_crcram_all_ones : after 0x00000014 { State.reset with ram := .replicate 9 0xFF }
    (fun t => (t.crc, t.stat.crcOk, t.stat.err)) = some (0xC9, false, .none) := by decide +kernel

/-- R126, the example. -/
theorem test_match : after 0x00000020 { onBus [false] with addr := addrA } (fun t => (t.stat.pres, t.stat.err, events t)) =
    some (true, .none, wireReset .spec false ++
      wireBytesOut .spec [0x55, 0x28, 0x62, 0x24, 0xC7, 0x03, 0x00, 0x00, 0x0F]) := by decide +kernel

/-- R126, R224: without presence nothing follows the reset slot. -/
theorem test_match_without_presence : after 0x00000020 (onBus [true])
    (fun t => (t.stat.pres, t.stat.err, stickyWord t.sticky, events t)) =
    some (false, .noPres, 0x02, wireReset .spec true) := by decide

/-- R127, the example. -/
theorem test_skip : after 0x00000021 (onBus [false]) (fun t => (t.stat.pres, t.stat.err, events t)) =
    some (true, .none, wireReset .spec false ++ wireBytesOut .spec [0xCC]) := by decide

/-- R129, the example; then R116. -/
theorem test_rdrom : after 0x00000022 (onBus (false :: bitsOf addrA.toList)) (fun t => (t.addr, t.line.bus)) =
    some (addrA, []) := by decide +kernel

/-- R152, the example (X3, V30): one device. -/
theorem test_findall_one_device : after 0x00000023 (onBus (descentSamples [addrA] addrA))
    (fun t => (t.reg, t.crc, t.lastd, t.mark, t.stat.srchDone)) = some ([addrA], 0x0F, 0, 0, true) := by decide +kernel

/-- X4, V31: two devices, the one with 0 at the first position where they differ first. -/
theorem test_findall_two_devices :
    after 0x00000023 (onBus (descentSamples [addrB, addrA] addrA ++ descentSamples [addrB, addrA] addrB))
      (fun t => (t.reg, t.stat.srchDone, t.line.bus)) = some ([addrA, addrB], true, []) := by decide +kernel

/-- R133, the example. -/
theorem test_ldaddr : after 0x00010024 { State.reset with reg := [addrA, addrB] } (fun t => (t.addr, t.stat.err)) =
    some (addrB, .none) := by decide

/-- R133, the example: index 2 of 2. -/
theorem test_ldaddr_out_of_range : after 0x00020024 { State.reset with reg := [addrA, addrB], addr := addrA }
    (fun t => (t.addr, t.stat.err, stickyWord t.sticky)) = some (addrA, .idx, 0x40) := by decide

/-- R188, the example: `COUNT` = 3 before. -/
theorem test_clrreg : after 0x00000025 { State.reset with reg := [addrA, addrB, .replicate 8 0], addr := addrA }
    (fun t => (t.count, t.addr)) = some (0, addrA) := by decide

/-- R166, the example. -/
theorem test_rdsp : after 0x00000030 { onBus (false :: bitsOf padX.toList) with addr := addrA }
    (fun t => (t.ram, t.line.bus)) = some (padX, []) := by decide +kernel

/-- R168, the example. -/
theorem test_wrsp : after 0x4B460031 { onBus [false] with addr := addrA, ram := #v[1, 2, 3, 4, 0x7F, 5, 6, 7, 8] }
    (fun t => (t.ram, events t)) = some (#v[1, 2, 0x4B, 0x46, 0x7F, 5, 6, 7, 8],
      wireMatchFrame .spec addrA ++ wireBytesOut .spec [0x4E, 0x4B, 0x46, 0x7F]) := by decide +kernel

/-- R168 (a): a family without a configuration register gets two bytes. -/
theorem test_wrsp_two_bytes : after 0x4B460031 { onBus [false] with addr := addrA.set 0 0x3B }
    (fun t => (t.stat.err, events t)) = some (.none,
      wireMatchFrame .spec (addrA.set 0 0x3B) ++ wireBytesOut .spec [0x4E, 0x4B, 0x46]) := by decide +kernel

/-- R170, the example. -/
theorem test_pwrq_all : after 0x00000132 (onBus [false, true]) (fun t => (t.stat.pwrExt, events t)) =
    some (true, wireReset .spec false ++ wireBytesOut .spec [0xCC, 0xB4] ++ wireRead .spec true) := by decide

/-- R170: an aborted query reports false. -/
theorem test_pwrq_without_presence : after 0x00000032 { onBus [true] with stat.pwrExt := true }
    (fun t => (t.stat.pwrExt, t.stat.err)) = some (false, .noPres) := by decide

/-- R185, the example. -/
theorem test_convt : after 0x00000033 { onBus [false] with addr := addrA, ram := (.replicate 9 0 : ScratchPad).set 4 0x3F }
    (fun t => (t.delay, events t)) = some (188, wireMatchFrame .spec addrA ++ wireBytesOut .spec [0x44]) := by
  decide +kernel

/-- R184: with parasite power on the data line a broadcast conversion drives the line high for 750 ms. -/
theorem test_convt_parasite : after 0x00000133 { onBus [false] with ctrl := ⟨true, false, false⟩, delay := 94 }
    (fun t => (t.delay, t.line.dqOe, events t)) = some (0, false,
      wireSkipFrame .spec ++ wireBytesOut .spec [0x44] ++ [.driveHigh, .wait 750000, .release]) := by decide +kernel

/-- R173, the example. -/
theorem test_setres : after 0x00090034 { onBus [false] with addr := addrA, ram := padX }
    (fun t => (t.ram[4], t.stat.resOk, events t)) = some (0x1F, true,
      wireMatchFrame .spec addrA ++ wireBytesOut .spec [0x4E, 0x4B, 0x46, 0x1F]) := by decide +kernel

/-- R173 (c): 13 bits leave the image untouched. -/
theorem test_setres_unsupported : after 0x000D0034 { onBus [false] with addr := addrA, ram := padX, stat.resOk := true }
    (fun t => (t.ram, t.stat.resOk, t.stat.err, events t)) = some (padX, false, .unsup, []) := by decide

/-- R190, the example. -/
theorem test_init : after 0x0000003F { onBus [false, true] with reg := [addrA], ram := padX, ctrl := ⟨true, true, true⟩ }
    (fun t => (t.count, t.ram, t.stat.pwrExt, t.ctrl)) =
    some (0, .replicate 9 0, true, ⟨false, true, true⟩) := by decide

/-- R190: an aborted query leaves `PARASITE` = 1, registry and image cleared all the same. -/
theorem test_init_without_presence : after 0x0000003F { onBus [true] with reg := [addrA], ram := padX }
    (fun t => (t.count, t.ram, t.stat.err, t.ctrl.parasite)) = some (0, .replicate 9 0, .noPres, true) := by decide

/-! ## The host port and reset -/

/-- R226. -/
theorem test_illegal_word_is_reported : after 0x00000006 { State.reset with stat.bit := true }
    (fun t => (t.stat.err, t.stat.bit, stickyWord t.sticky, t.line.trace)) = some (.ill, true, 0x20, []) := by decide

/-- R23, R50: address A in `ADDR_LO` and `ADDR_HI`. -/
theorem test_read_address :
    regRead 0x06 { State.reset with addr := addrA } = 0xC7246228 ∧
    regRead 0x07 { State.reset with addr := addrA } = 0x0F000003 := by decide

/-- R19, R42: a write of ones clears the flags it names. -/
theorem test_write_sticky :
    regRead 0x02 { State.reset with sticky := 0x03 } = 0x06 ∧
    regRead 0x02 (regWrite 0x02 0xFFFFFF03 { State.reset with sticky := 0x03 }) = 0x04 := by decide

/-- R245, R247: `rst` in the middle of a write slot of `WBIT 0`. -/
theorem test_rst_cuts_a_slot :
    (nextOf (step { State.reset with data := 5, host := [.commandCut 0x00000002 3] })).map
      (fun t => (t.data, t.line.dqOe, t.line.crit, events t)) =
    some (0, false, false, [.critEnter, .driveLow, .wait 3, .rst]) := by decide

/-! ## Witnesses: states and operands that meet the hypotheses of the statements -/

/-- `wf` at the largest operands. -/
theorem witness_DecodeOfEncode : (Instr.ldaddr 255).wf = true ∧ (Instr.setres 255).wf = true ∧
    (Instr.wrsp 0xFFFF).wf = true := by decide

theorem witness_EncodeOfDecode : decode 0xFFFF0031 = .ok (.wrsp 0xFFFF) := by decide

theorem witness_DecodeFollowsOpcodeTable : Instr.tableRow .init ∈ opcodeTable ∧
    (Instr.tableRow .init).Fits 0x0000003F := by decide

theorem witness_StepRunsDecodedCommand :
    let s : State := { State.reset with host := [.write 0x00 0x00CC0004, .read 0x01] }
    s.busy = false ∧ s.host = .write 0x00 0x00CC0004 :: [.read 0x01] ∧ decode 0x00CC0004 = .ok (.wbyte 0xCC) := by
  decide

theorem witness_IllegalWordReportsEIll :
    let s : State := { State.reset with host := [.write 0x00 0x00000006] }
    s.busy = false ∧ s.host = .write 0x00 0x00000006 :: [] ∧ decode 0x00000006 = .error .unassignedOp := by decide

/-- A pass under way, the host about to read, and one with no move to come. -/
theorem witness_RunningPassHoldsHostPort :
    (∃ s : State, s.busy = true ∧ ∀ rest, s.host ≠ .rst :: rest) ∧
    ∃ s : State, s.busy = true ∧ s.host = [.read 0x01] ∧ ∀ rest, s.host ≠ .rst :: rest :=
  ⟨⟨{ State.reset with busy := true }, rfl, by simp [State.reset]⟩,
    { State.reset with busy := true, host := [.read 0x01] }, rfl, rfl, by simp⟩

theorem witness_IdleControllerDoesNothing : State.reset.busy = false ∧ State.reset.host = [] := by decide

/-- `rst` while a pass is under way, and while the controller is idle. -/
theorem witness_RstGivesResetState :
    { State.reset with busy := true, host := [.rst] }.host = .rst :: [] ∧
    { State.reset with host := [.rst, .read 0x01] }.host = .rst :: [.read 0x01] := by decide

/-- `RESET` on an empty bus, cut after 0 events, after 3, and after its end. -/
theorem witness_RstCutsCommandShort (k : Nat) :
    let s : State := { onBus [true] with host := [.commandCut 0x00000001 k] }
    ∃ u, s.busy = false ∧ s.host = .commandCut 0x00000001 k :: [] ∧
      runWord 0x00000001 { s with host := [] } = .next u ∧ u.busy = false ∧
      u.line = s.line.play (wireReset .spec true) :=
  ⟨_, rfl, rfl, rfl, rfl, rfl⟩

theorem witness_RegisterReadHasNoEffect :
    { State.reset with host := [.read 0x3F] }.busy = false ∧
    { State.reset with host := [.read 0x3F] }.host = .read 0x3F :: [] := by decide

/-- The premises of `RegisterMapLayout` at their largest values; `SRCH` and `STICKY` with every bit set. -/
theorem witness_RegisterMapLayout :
    let s : State := { State.reset with reg := List.replicate 255 addrA, lastd := 127, mark := 127, sticky := 127 }
    s.count ≤ 255 ∧ (1 ≤ 1 ∧ 1 ≤ 7) ∧ (1 ≤ 7 ∧ 7 ≤ 7) ∧ (regRead 0x0B s).toNat = 255 ∧ regRead 0x0F s = 0x7F7F ∧
      regRead 0x02 s = 0xFE := by decide +kernel

/-- A host about to write register `n`. -/
theorem witness_RegisterWriteEffects (n : RegNo) :
    { State.reset with host := [.write n 0xFFFFFFFF] }.busy = false ∧
    { State.reset with host := [.write n 0xFFFFFFFF] }.host = .write n 0xFFFFFFFF :: [] := ⟨rfl, rfl⟩

/-- The read-only registers, and the ends of the unmapped range. -/
theorem witness_ReadOnlyAndUnmappedWritesIgnored :
    (0x01 : RegNo).toNat ∈ [0x01, 0x0B, 0x0C, 0x0D, 0x0E, 0x0F] ∧
    (0x0F : RegNo).toNat ∈ [0x01, 0x0B, 0x0C, 0x0D, 0x0E, 0x0F] ∧ 0x10 ≤ (0x10 : RegNo).toNat ∧
    0x10 ≤ (0x3F : RegNo).toNat ∧ { State.reset with host := [.write 0x10 1] }.host = .write 0x10 1 :: [] := by decide

theorem witness_EventsSetPinsAndPortsShowThem : State.reset.line.pwrOn = false ∧
    { State.reset with line := { Line.reset with pwrOn := true } }.line.pwrOn = true := by decide

/-- Presence at the first sample, and none. -/
theorem witness_presence : (onBus [false]).line.peek 0 = false ∧ (onBus [true]).line.peek 0 = true := by decide

theorem witness_MatchAndSkipSelect : (onBus [false]).line.peek 0 = false ∧ (onBus [true]).line.peek 0 = true :=
  witness_presence
theorem witness_RdromReadsAddress : (onBus [false]).line.peek 0 = false ∧ (onBus [true]).line.peek 0 = true :=
  witness_presence
theorem witness_RdspReadsScratchPad : (onBus [false]).line.peek 0 = false ∧ (onBus [true]).line.peek 0 = true :=
  witness_presence
theorem witness_WrspWritesScratchPad : (onBus [false]).line.peek 0 = false ∧ (onBus [true]).line.peek 0 = true :=
  witness_presence
theorem witness_PwrqReportsPower : (onBus [false]).line.peek 0 = false ∧ (onBus [true]).line.peek 0 = true :=
  witness_presence
theorem witness_ConvtTriggersConversion : (onBus [false]).line.peek 0 = false ∧ (onBus [true]).line.peek 0 = true :=
  witness_presence
theorem witness_InitQueriesPower : (onBus [false]).line.peek 0 = false ∧ (onBus [true]).line.peek 0 = true :=
  witness_presence
theorem witness_FindallOnEmptyBus : (onBus [true]).line.peek 0 = true := witness_presence.2

/-- The last index in the registry, the first beyond it, and the largest index a word carries. -/
theorem witness_LdaddrCopiesRegistryEntry :
    let s : State := { State.reset with reg := [addrA, addrB] }
    1 < s.count ∧ s.count ≤ 2 ∧ s.count ≤ 255 ∧ (255 : Nat) ≤ 255 := by decide

/-- The supported resolutions at both ends, with and without presence; an unsupported family; the resolutions just
outside, and the largest a word carries. -/
theorem witness_SetresWritesResolution :
    let s : State := { onBus [false] with addr := addrA }
    let t : State := { onBus [true] with addr := addrA.set 0 0x10 }
    (s.addr[0] = 0x10 ∨ s.addr[0] = 0x28 ∨ s.addr[0] = 0x22) ∧ s.line.peek 0 = false ∧
    (t.addr[0] = 0x10 ∨ t.addr[0] = 0x28 ∨ t.addr[0] = 0x22) ∧ t.line.peek 0 = true ∧
    (9 ≤ 9 ∧ 9 ≤ 12) ∧ (9 ≤ 12 ∧ 12 ≤ 12) ∧ ¬ (State.reset.addr[0] = 0x10 ∨ State.reset.addr[0] = 0x28 ∨
      State.reset.addr[0] = 0x22) ∧ 8 < 9 ∧ 12 < 13 ∧ 255 ≤ 255 := by decide

theorem witness_CrcEightLaws : (0x00 : Byte) ≠ 0x01 := by decide

/-- Two devices and an empty registry: the samples of both descents. -/
def twoDevices : State := onBus ([addrA, addrB].flatMap (descentSamples [addrA, addrB]))

theorem addrA_before_addrB : wireBefore addrA addrB := ⟨9, by decide, by decide, by decide +kernel, by decide, by decide⟩

theorem twoDevices_bus (tail : List RomAddr) : { twoDevices with reg := tail }.line.bus =
    [addrA, addrB].flatMap (descentSamples [addrA, addrB]) ++ [] := by
  rw [List.append_nil]
  unfold twoDevices onBus
  generalize [addrA, addrB].flatMap (descentSamples [addrA, addrB]) = bus
  rfl

theorem addrA_valid : ValidRom addrA := by decide +kernel
theorem addrB_valid : ValidRom addrB := by decide +kernel

theorem twoDevices_valid : ∀ d ∈ [addrA, addrB], ValidRom d := by
  intro d hd
  rcases List.mem_pair.1 hd with rfl | rfl
  · exact addrA_valid
  · exact addrB_valid

theorem witness_FindallFindsFixedSetInOrder :
    let s : State := { twoDevices with reg := [] }
    [addrA, addrB].Pairwise wireBefore ∧ (∀ d ∈ [addrA, addrB], ValidRom d) ∧
      [addrA, addrB].getLast? = some addrB ∧ [addrA, addrB].length ≤ s.cfg.nDev ∧ s.reg = [] ∧
      s.line.bus = [addrA, addrB].flatMap (descentSamples [addrA, addrB]) ++ [] :=
  ⟨List.pairwise_pair.2 addrA_before_addrB, twoDevices_valid, by decide +kernel, by decide +kernel, by decide +kernel,
    twoDevices_bus []⟩

/-- The same devices, already in the registry in another order. -/
theorem witness_FindallSecondPassKeepsRegistry :
    let s : State := { twoDevices with reg := [addrB, addrA] }
    [addrA, addrB].Pairwise wireBefore ∧ (∀ d ∈ [addrA, addrB], ValidRom d) ∧
      [addrA, addrB].getLast? = some addrB ∧ [addrA, addrB].length ≤ s.cfg.nDev ∧
      (∀ d ∈ [addrA, addrB], d ∈ s.reg) ∧
      s.line.bus = [addrA, addrB].flatMap (descentSamples [addrA, addrB]) ++ [] :=
  ⟨List.pairwise_pair.2 addrA_before_addrB, twoDevices_valid, by decide +kernel, by decide +kernel, by
    intro d hd
    rcases List.mem_pair.1 hd with rfl | rfl
    · exact List.mem_pair.2 (.inr rfl)
    · exact List.mem_pair.2 (.inl rfl), twoDevices_bus [addrB, addrA]⟩

theorem witness_FindallWithoutAnswerReportsCollision :
    let s := onBus [false, true, true]
    s.line.peek 0 = false ∧ s.line.peek 1 = true ∧ s.line.peek 2 = true := by decide

/-- What `FINDALL` ends in on these samples, with this registry and a capacity of one. -/
def endOn (reg : List RomAddr) (bus : List Bool) : Option (Bool × Bool × Err) :=
  (nextOf (exec .findall { onBus bus with cfg := { Config.spec with nDev := 1 }, reg := reg })).map
    fun t => (t.busy, t.stat.srchDone, t.stat.err)

/-- The samples of a descent of one device with the all-zero address, but for a discrepancy at position `p`. -/
def zeroDescent (p : Nat) : List Bool :=
  false :: (List.range' 1 64).flatMap fun pos => [false, decide (pos ≠ p)]

/-- Every clause of `FindallEndings` is met: exhaustion, no presence, collision, checksum (R159 (b): the line stuck
low), overflow, and a pass still under way (R156). -/
theorem witness_FindallEndings_exhaustion : endOn [] (zeroDescent 0) = some (false, true, .none) := by decide +kernel
theorem witness_FindallEndings_noPresence : endOn [] [true] = some (false, false, .noPres) := by decide +kernel
theorem witness_FindallEndings_collision : endOn [] [false, true, true] = some (false, false, .coll) := by
  decide +kernel
theorem witness_FindallEndings_checksum : endOn [] (List.replicate 258 false) = some (false, false, .crc) := by
  decide +kernel
theorem witness_FindallEndings_overflow : endOn [addrA] (zeroDescent 0) = some (false, false, .regOvf) := by
  decide +kernel
theorem witness_FindallEndings_underWay : endOn [] (zeroDescent 2 ++ zeroDescent 1) = some (true, false, .none) := by
  decide +kernel

/-! A pass that a step continues -/

/-- Between two descents of a pass: position 9 marked, `addrA` found, and these samples to come. -/
def midPass (bus : List Bool) : State :=
  { onBus bus with
    cfg := { Config.spec with nDev := 1 }, busy := true, lastd := 9, mark := 9, srom := addrA, reg := [addrA],
    host := [.read 0x01] }

theorem midPass_clean (bus : List Bool) : PassClean (midPass bus) := ⟨rfl, rfl, rfl, show 9#7 ≠ 0 by decide⟩

theorem midPass_goes_on (bus : List Bool) : PassGoesOn (midPass bus) (continuePass (midPass bus)) :=
  ⟨rfl, fun _ h => by simp [midPass] at h, rfl⟩

/-- What a step that continues the pass ends in. -/
def midEnd (bus : List Bool) : Bool × Bool × Err :=
  let t := continuePass (midPass bus)
  (t.busy, t.stat.srchDone, t.stat.err)

/-- The samples of a descent that leads to `addrA` again, with a discrepancy at position `p` only (none for 0); `addrA`
has bit 0 at positions 1 to 3. -/
def revisit (p : Nat) : List Bool :=
  false :: (List.range' 1 64).flatMap fun pos =>
    if pos = p then [false, false] else [romBit addrA pos, !romBit addrA pos]

theorem witness_FindallEndings_continued (bus : List Bool) :
    PassGoesOn (midPass bus) (continuePass (midPass bus)) ∧ PassClean (midPass bus) :=
  ⟨midPass_goes_on bus, midPass_clean bus⟩
theorem witness_FindallEndings_continued_exhaustion : midEnd (revisit 0) = (false, true, .none) := by decide +kernel
theorem witness_FindallEndings_continued_noPresence : midEnd [true] = (false, false, .noPres) := by decide +kernel
theorem witness_FindallEndings_continued_collision : midEnd [false, true, true] = (false, false, .coll) := by
  decide +kernel
theorem witness_FindallEndings_continued_checksum : midEnd (List.replicate 129 false) = (false, false, .crc) := by
  decide +kernel
theorem witness_FindallEndings_continued_overflow : midEnd (zeroDescent 0) = (false, false, .regOvf) := by decide +kernel
theorem witness_FindallEndings_continued_underWay : midEnd (revisit 3 ++ revisit 2) = (true, false, .none) := by
  decide +kernel

/-- A descent that the check below says goes on, or aborts. -/
def goesOn : Flow → Bool
  | .go _ => true
  | .aborted _ => false

theorem eq_go_of_goesOn {f : Flow} (h : goesOn f = true) : f = .go f.state := by
  cases f with
  | go s => rfl
  | aborted s => cases h

theorem eq_aborted_of_goesOn {f : Flow} (h : goesOn f = false) : f = .aborted f.state := by
  cases f with
  | go s => cases h
  | aborted s => rfl

/-- A descent that aborts. -/
theorem witness_FindallEndings_abortedDescent :
    descent (onBus [true]) = .aborted (descent (onBus [true])).state := eq_aborted_of_goesOn (by decide +kernel)

/-- A complete first descent, and one that aborts early. -/
theorem witness_FirstDescentIgnoresOldAddress :
    (onBus (zeroDescent 2)).lastd = 0 ∧ (onBus [false, true, true]).lastd = 0 ∧
    descent (onBus (zeroDescent 2)) = .go (descent (onBus (zeroDescent 2))).state ∧
    descent (onBus [false, true, true]) = .aborted (descent (onBus [false, true, true])).state :=
  ⟨rfl, rfl, eq_go_of_goesOn (by decide +kernel), eq_aborted_of_goesOn (by decide +kernel)⟩

/-- The samples of a descent that answers 1 at position `p` and 0 elsewhere. -/
def oneBitDescent (p : Nat) : List Bool :=
  false :: (List.range' 1 64).flatMap fun pos => [decide (pos = p), decide (pos ≠ p)]

/-- First descents that abort on the check of the address and on a full registry. -/
theorem witness_FirstDescentIgnoresOldAddress_lateAborts :
    let s := onBus (oneBitDescent 64)
    let u := { onBus (zeroDescent 0) with cfg := { Config.spec with nDev := 1 }, reg := [addrA] }
    (descent s = .aborted (descent s).state ∧ (descent s).state.stat.err = .crc) ∧
    (descent u = .aborted (descent u).state ∧ (descent u).state.stat.err = .regOvf) :=
  ⟨⟨eq_aborted_of_goesOn (by decide +kernel), by decide +kernel⟩,
    ⟨eq_aborted_of_goesOn (by decide +kernel), by decide +kernel⟩⟩

/-- The three branches, at the ends of the range. -/
theorem witness_DiscrepancyBranchRule :
    (1 ≤ 64 ∧ 64 ≤ 64 ∧ 64 = { State.reset with lastd := 64 }.lastd.toNat) ∧
    (1 ≤ 1 ∧ 1 ≤ 64 ∧ State.reset.lastd.toNat < 1) ∧
    (1 ≤ 1 ∧ 1 ≤ 64 ∧ 1 < { State.reset with lastd := 64 }.lastd.toNat ∧ romBit State.reset.srom 1 = false) ∧
    (63 < { State.reset with lastd := 64 }.lastd.toNat ∧ romBit (.replicate 8 0xFF) 63 = true) := by decide

/-- The invariants hold at a state whose next step executes a command, and at one whose next step continues a pass. -/
theorem witness_StepKeepsInvariants :
    let s : State := { State.reset with host := [.write 0x00 0x00000001], reg := [addrA], lastd := 64, delay := 750 }
    (Inv s ∧ ∃ t, step s = .next t) ∧ Inv (midPass []) ∧ step (midPass []) = .next (continuePass (midPass [])) :=
  ⟨⟨⟨by decide, List.nodup_singleton _, fun a ha => List.mem_singleton.1 ha ▸ addrA_valid, by decide, by decide,
      by decide, by decide, by decide, by decide, fun _ => by decide, fun h => by cases h⟩, _, rfl⟩,
    ⟨by decide, List.nodup_singleton _, fun a ha => List.mem_singleton.1 ha ▸ addrA_valid, by decide, by decide,
      by decide, by decide, by decide, by decide, fun _ => by decide, fun _ => midPass_clean _⟩, rfl⟩

/-- Every command answers a next state, here after reset. -/
theorem witness_next (i : Instr) : ∃ t, exec i State.reset = .next t := by cases i <;> exact ⟨_, rfl⟩

theorem witness_advances (i : Instr) : ∃ t, Advances i State.reset t :=
  let ⟨t, h⟩ := witness_next i
  ⟨t, .inl h⟩

/-- The same for a pass that a step continues. -/
theorem witness_advances_continued : ∃ t, Advances .findall (midPass []) t := ⟨_, .inr ⟨rfl, midPass_goes_on []⟩⟩

theorem witness_CommandsWriteOnlyTheirState (i : Instr) : ∃ t, Advances i State.reset t := witness_advances i
theorem witness_CommandsWriteOnlyTheirState_continued : ∃ t, Advances .findall (midPass []) t :=
  witness_advances_continued
theorem witness_StickyRecordsEveryError (i : Instr) :
    (∃ t, exec i State.reset = .next t) ∧ (1 ≤ 1 ∧ 1 ≤ 7) ∧ (1 ≤ 7 ∧ 7 ≤ 7) := ⟨witness_next i, by decide, by decide⟩
theorem witness_StickyRecordsEveryError_continued :
    ∃ t, Instr.findall = .findall ∧ PassGoesOn (midPass []) t ∧ PassClean (midPass []) :=
  ⟨_, rfl, midPass_goes_on [], midPass_clean []⟩
theorem witness_ErrorsHaveTheirRaisers (i : Instr) : ∃ t, exec i State.reset = .next t := witness_next i
theorem witness_ErrorsHaveTheirRaisers_continued :
    ∃ t, Instr.findall = .findall ∧ PassGoesOn (midPass []) t ∧ PassClean (midPass []) :=
  witness_StickyRecordsEveryError_continued
theorem witness_CommandsAppendEvents (i : Instr) : ∃ t, Advances i State.reset t := witness_advances i
theorem witness_CommandsAppendEvents_continued : ∃ t, Advances .findall (midPass []) t := witness_advances_continued

theorem witness_RegistryOnlyGrows : (∃ t, Advances .findall State.reset t) ∧
    (∃ t, Advances .findall (midPass []) t) ∧ Instr.findall ≠ .clrreg ∧ Instr.findall ≠ .init :=
  ⟨witness_advances _, witness_advances_continued, by decide, by decide⟩

/-- A legal word about to be written, `ERR` = `E_ILL` already: `rst` and a read keep or clear it. -/
theorem witness_ExpectedMovesNeverGiveEIll :
    let s : State := { State.reset with host := [.read 0x0F], stat.err := .ill }
    s.busy = false ∧ s.host = .read 0x0F :: [] ∧ (HostMove.read 0x0F).expected = true ∧
      (HostMove.write 0x00 0x00000001).expected = true ∧ (HostMove.write 0x00 0x00000006).expected = false ∧
      (HostMove.read 0x10).expected = false ∧ (nextOf (step s)).map (fun t => t.stat.err) = some .ill := by decide

theorem witness_PinFreeCommands : touchesNoPin .nop = true ∧ touchesNoPin (.ldaddr 255) = true := by decide

theorem witness_OnlyConvtSuppliesPower :
    ∃ (t : State) (es : List Event), Advances (.wbit true) State.reset t ∧
      t.line.trace = es ++ State.reset.line.trace ∧ isConvt (.wbit true) = false :=
  ⟨_, _, .inl rfl, (List.append_nil _).symm, rfl⟩

/-- A step that continues a pass, with the events it adds: for `OnlyConvtSuppliesPower` and `CriticalWindowsPair`. -/
theorem witness_continuedEvents : ∃ (t : State) (es : List Event), Advances .findall (midPass [true]) t ∧
    t.line.trace = es ++ (midPass [true]).line.trace ∧ t.line.trace = es.reverse.reverse ++ (midPass [true]).line.trace ∧
    isConvt .findall = false := by
  have h : (midPass [true]).line.trace = [] := rfl
  exact ⟨_, _, .inr ⟨rfl, midPass_goes_on [true]⟩, by rw [h, List.append_nil], by rw [h, List.append_nil, List.reverse_reverse],
    rfl⟩

theorem witness_CriticalWindowsPair :
    ∃ (t : State) (es : List Event), Advances .rbit (onBus [false]) t ∧
      t.line.trace = es.reverse ++ (onBus [false]).line.trace :=
  ⟨_, _, .inl rfl, by rw [show (onBus [false]).line.trace = [] from rfl, List.append_nil, List.reverse_reverse]⟩

/-- A complete descent, its head and a triplet that goes on, with the events of each. -/
theorem witness_DescentLength :
    let s := onBus (zeroDescent 0)
    s.cfg = Config.spec ∧
    (descent s = .go (descent s).state ∧ (descent s).state.line = s.line.play (newEvents s (descent s).state)) ∧
    (descentHead s = .go (descentHead s).state ∧
      (descentHead s).state.line = s.line.play (wireReset .spec false ++ wireBytesOut .spec [0xF0])) ∧
    let u := onBus [true, false]
    triplet 1 u = .go (triplet 1 u).state ∧
      (triplet 1 u).state.line = u.line.play (wireRead .spec true ++ wireRead .spec false ++ wireWrite .spec true) := by
  refine ⟨rfl, ⟨eq_go_of_goesOn ?_, ?_⟩, ⟨eq_go_of_goesOn ?_, ?_⟩, eq_go_of_goesOn ?_, ?_⟩ <;> decide +kernel

/-- `CHECKSUM` of no bytes, and of one. -/
theorem witness_ChecksumPseudoCommand :
    let s : State := { State.reset with host := pseudoChecksum [] }
    let t : State := { State.reset with host := pseudoChecksum [0x28] }
    (s.busy = false ∧ s.host = pseudoChecksum []) ∧ (t.busy = false ∧ t.host = pseudoChecksum [0x28]) :=
  ⟨⟨rfl, rfl⟩, rfl, rfl⟩

theorem witness_SetAddrPseudoCommand :
    let s : State := { State.reset with host := pseudoSetAddr addrA }
    s.busy = false ∧ s.host = pseudoSetAddr addrA := ⟨rfl, rfl⟩

end Sys2Proof.Machine.Tests
end

/-! SUPPORT. The events of every command (spec/00_scope.md R9): the slots its frame is made of and, for `CONVT` alone, the
power phase after them. -/

namespace Sys2Proof.Machine

/-! ## Pins and ports -/

/-- Settles O18: the pins are the definition of each event read out; the samples to come move up by the one taken. -/
theorem eventsSetPinsAndPortsShowThem : Obligations.EventsSetPinsAndPortsShowThem := by
  refine ⟨fun l n => ⟨rfl, rfl, rfl, rfl, rfl, rfl, rfl, rfl⟩, fun l v => ⟨rfl, rfl, rfl, rfl, rfl, ?_⟩,
    fun l e es => ⟨Line.play_nil l, Line.play_cons l e es⟩, fun s => ⟨rfl, rfl, rfl, rfl, ?_, ?_, rfl, rfl⟩⟩
  · exact Line.peek_emit l (.sample v)
  · exact fun hOn => if_pos hOn
  · exact fun hOff => if_neg (ne_true_of_eq_false hOff)

/-! ## Lines that slots lead to -/

/-- The line `m` is what a sequence of slots makes of the line `l`. -/
def SlotsLead (l m : Line) : Prop := ∃ es, SlotEvents l es ∧ m = l.play es

theorem SlotsLead.refl (l : Line) : SlotsLead l l := ⟨[], .nil l, rfl⟩

theorem SlotsLead.trans {l m n : Line} (hlm : SlotsLead l m) (hmn : SlotsLead m n) : SlotsLead l n := by
  obtain ⟨es, hes, rfl⟩ := hlm
  obtain ⟨fs, hfs, rfl⟩ := hmn
  exact ⟨es ++ fs, hes.append hfs, (Line.play_append l es fs).symm⟩

/-- An abort cuts a sequence between two slots, never within one (R220). -/
theorem SlotsLead.andThen {l : Line} {f : Flow} {g : State → Flow} (hf : SlotsLead l f.state.line)
    (hg : ∀ t, SlotsLead t.line (g t).state.line) : SlotsLead l (f.andThen g).state.line := by
  cases f with
  | go t => exact hf.trans (hg t)
  | aborted t => exact hf

theorem SlotsLead.command {body : State → Flow} {s t : State} (h : command body s = .next t)
    (hbody : ∀ u, SlotsLead u.line (body u).state.line) : SlotsLead s.line t.line :=
  command_eq_next h ▸ hbody (prologue s)

/-! ## The shared operations are made of slots -/

theorem busReset_slots (s : State) : SlotsLead s.line (busReset s).line :=
  ⟨_, .wireReset s.cfg s.line, rfl⟩

theorem writeSlot_slots (b : Bool) (s : State) : SlotsLead s.line (s.writeSlot b).line :=
  ⟨_, .wireWrite s.cfg b s.line, Line.writeSlot_eq s.cfg b s.line⟩

theorem writeBytes_slots (vs : List Byte) (s : State) : SlotsLead s.line (s.writeBytes vs).line :=
  ⟨_, .wireBytesOut s.cfg vs s.line, Line.writeBytes_eq s.cfg vs s.line⟩

theorem readSlot_slots (c : Config) (l : Line) : SlotsLead l (l.readSlot c).2 :=
  ⟨_, .wireRead c l, rfl⟩

theorem readByte_slots (c : Config) (l : Line) : SlotsLead l (l.readByte c).2 :=
  ⟨_, .wireByteIn c l, congrArg Prod.snd (Line.readByte_eq c l)⟩

theorem readBytes_slots (c : Config) (n : Nat) (l : Line) : SlotsLead l (l.readBytes c n).2 :=
  ⟨_, .wireBytesIn c n l, congrArg Prod.snd (Line.readBytes_eq c n l)⟩

theorem resetOrAbort_slots (s : State) : SlotsLead s.line (resetOrAbort s).state.line := by
  unfold resetOrAbort
  dsimp only
  split
  · exact busReset_slots s
  · exact busReset_slots s

theorem matchRom_slots (s : State) : SlotsLead s.line (matchRom s).state.line :=
  (resetOrAbort_slots s).andThen fun t => writeBytes_slots _ t

theorem skipRom_slots (s : State) : SlotsLead s.line (skipRom s).state.line :=
  (resetOrAbort_slots s).andThen fun t => writeBytes_slots _ t

theorem select_slots (all : Bool) (s : State) : SlotsLead s.line (select all s).state.line := by
  cases all with
  | false => exact matchRom_slots s
  | true => exact skipRom_slots s

theorem writeScratch_slots (s : State) : SlotsLead s.line (writeScratch s).state.line :=
  (matchRom_slots s).andThen fun t => writeBytes_slots _ t

theorem powerBit_slots (s : State) : SlotsLead s.line (powerBit s).2.line :=
  (writeBytes_slots _ s).trans (readSlot_slots _ _)

theorem continuePass_slots (s : State) : SlotsLead s.line (continuePass s).line :=
  continuePass_events s

/-! ## Every command -/

/-- What the command `i` can do at the pins, from the line `l` and with the power control `c`: slots and, where it is a
`CONVT`, perhaps its power phase after them. -/
inductive CommandEvents (i : Instr) (l : Line) (c : Ctrl) : List Event → Prop where
  | slots {es : List Event} (h : SlotEvents l es) : CommandEvents i l c es
  | powered {es : List Event} (hi : isConvt i = true) (h : SlotEvents l es) (d : BitVec 16) (wait : Bool) :
      CommandEvents i l c (es ++ wirePower c d wait)

theorem SlotsLead.commandEvents {l m : Line} (h : SlotsLead l m) (i : Instr) (c : Ctrl) :
    ∃ es, CommandEvents i l c es ∧ m = l.play es := by
  obtain ⟨es, hes, hm⟩ := h
  exact ⟨es, .slots hes, hm⟩

theorem select_go_ctrl {all : Bool} {s t : State} (h : select all s = .go t) : t.ctrl = s.ctrl := by
  cases hp : s.line.peek 0 with
  | true =>
    rw [select_absent all hp] at h
    cases h
  | false =>
    rw [select_present all hp] at h
    cases h
    rfl

/-- `CONVT` after its prologue: the power phase follows the frame, or an abort leaves it out (R184, R185). -/
theorem convt_frame_events (all wait : Bool) (d : State → BitVec 16) (s : State) :
    ∃ es, CommandEvents (.convt all wait) s.line s.ctrl es ∧
      ((select all s).andThen fun t =>
        .go (powerPhase (d t) wait (t.writeBytes [wireConvertTemperature]))).state.line = s.line.play es := by
  have hSelect := select_slots all s
  cases hf : select all s with
  | aborted t =>
    rw [hf] at hSelect
    exact hSelect.commandEvents _ _
  | go t =>
    rw [hf] at hSelect
    obtain ⟨es, hes, hl⟩ := hSelect.trans (writeBytes_slots [wireConvertTemperature] t)
    refine ⟨_, .powered rfl hes (d t) wait, ?_⟩
    rw [Line.play_append, ← hl, ← select_go_ctrl hf, Flow.andThen_go, Flow.state_go, powerPhase_eq,
      State.writeBytes_ctrl]

/-- Every command but `CONVT` is made of slots. -/
theorem exec_slots {i : Instr} {s t : State} (hi : isConvt i = false) (h : exec i s = .next t) :
    SlotsLead s.line t.line := by
  cases i with dsimp only [exec] at h
  | convt all wait => cases hi
  | nop | crci _ | crcb _ | crcd | crcrom | crcram | clrreg => exact .command h fun u => .refl u.line
  | reset => exact .command h busReset_slots
  | wbit b => exact .command h (writeSlot_slots b)
  | rbit => exact .command h fun u => readSlot_slots u.cfg u.line
  | wbyte v => exact .command h (writeBytes_slots [v])
  | rbyte => exact .command h fun u => readByte_slots u.cfg u.line
  | matchrom => exact .command h matchRom_slots
  | skip => exact .command h skipRom_slots
  | rdrom =>
    exact .command h fun u => (resetOrAbort_slots u).andThen fun v =>
      (writeBytes_slots _ v).trans (readBytes_slots _ _ _)
  | findall => exact .command h fun u => continuePass_slots (startPass u)
  | ldaddr index =>
    refine .command h fun u => ?_
    cases u.reg[index]? with
    | some a => exact .refl u.line
    | none => exact .refl u.line
  | rdsp =>
    exact .command h fun u => (matchRom_slots u).andThen fun v =>
      (writeBytes_slots _ v).trans (readBytes_slots _ _ _)
  | wrsp word =>
    exact .command h fun u =>
      writeScratch_slots { u with ram := (u.ram.set 2 (word.extractLsb' 8 8)).set 3 (word.extractLsb' 0 8) }
  | pwrq all => exact .command h fun u => (select_slots all { u with stat.pwrExt := false }).andThen powerBit_slots
  | setres bits =>
    refine .command h fun u => ?_
    dsimp only
    split
    · exact .refl u.line
    · split
      · exact .refl u.line
      · exact (writeScratch_slots { u with
          ram := u.ram.set 4 (mergeResolution u.ram[4] (resolutionCode bits)), stat.resOk := false }).andThen
            fun v => .refl v.line
  | init =>
    exact .command h fun u => (skipRom_slots { u with
      reg := [], ram := .replicate 9 0, stat.pwrExt := false, ctrl.parasite := true }).andThen powerBit_slots

/-- All a command does at the pins, also by a step that continues its pass. -/
theorem Advances.events {i : Instr} {s t : State} (h : Advances i s t) :
    ∃ es, CommandEvents i s.line s.ctrl es ∧ t.line = s.line.play es := by
  rcases h.cases with hExec | ⟨-, -, rfl⟩
  · cases hi : isConvt i with
    | false => exact (exec_slots hi hExec).commandEvents i s.ctrl
    | true =>
      cases i with
      | convt all wait =>
        rw [command_eq_next (show execConvt all wait s = _ from hExec)]
        exact convt_frame_events all wait _ { prologue s with delay := 0 }
      | _ => cases hi
  · exact (continuePass_slots s).commandEvents _ s.ctrl

theorem samplesOf_wirePower (ctrl : Ctrl) (d : BitVec 16) (wait : Bool) : samplesOf (wirePower ctrl d wait) = [] := by
  rcases ctrl with ⟨parasite, pwrEn, pwrPol⟩
  cases parasite <;> cases pwrEn <;> cases wait <;> rfl

theorem CommandEvents.samples {i : Instr} {l : Line} {c : Ctrl} {es : List Event} (h : CommandEvents i l c es) :
    samplesOf es = (List.range (samplesOf es).length).map l.peek := by
  cases h with
  | slots hes => exact hes.samples
  | powered hi hes d wait =>
    rw [samplesOf_append, samplesOf_wirePower, List.append_nil]
    exact hes.samples

/-- Settles O53: the slots take the samples in order, and a power phase takes none. -/
theorem commandsAppendEvents : Obligations.CommandsAppendEvents := by
  intro i s t h
  obtain ⟨es, hes, ht⟩ := h.events
  exact ⟨es, ht, by rw [ht, Line.play_trace], hes.samples⟩

end Sys2Proof.Machine

/-! SUPPORT. What a command writes and what it leaves unchanged (spec/10_state.md R10, R15, R18, R19), said once for each
shared operation and once for each command. -/

namespace Sys2Proof.Machine

/-! ## What a command may write (R10, R18) -/

/-- From `s` to `t` nothing changed but what the tables of R10 and R18 let the command `i` write. -/
structure WritesOnly (i : Instr) (s t : State) : Prop where
  cfg : t.cfg = s.cfg
  host : t.host = s.host
  replies : t.replies = s.replies
  addr : writesAddr i = false → t.addr = s.addr
  ram : writesRam i = false → t.ram = s.ram
  crc : writesCrc i = false → t.crc = s.crc
  data : i ≠ .rbyte → t.data = s.data
  reg : writesReg i = false → t.reg = s.reg
  search : i ≠ .findall → t.srom = s.srom ∧ t.lastd = s.lastd ∧ t.mark = s.mark ∧ t.busy = s.busy ∧
    t.stat.srchDone = s.stat.srchDone
  delay : isConvt i = false → t.delay = s.delay
  ctrl : i ≠ .init → t.ctrl = s.ctrl
  pwrEn : t.ctrl.pwrEn = s.ctrl.pwrEn
  pwrPol : t.ctrl.pwrPol = s.ctrl.pwrPol
  pres : writesPres i = false → t.stat.pres = s.stat.pres
  bit : i ≠ .rbit → t.stat.bit = s.stat.bit
  pwrExt : writesPwrExt i = false → t.stat.pwrExt = s.stat.pwrExt
  crcOk : writesCrcOk i = false → t.stat.crcOk = s.stat.crcOk
  resOk : isSetres i = false → t.stat.resOk = s.stat.resOk

theorem WritesOnly.refl (i : Instr) (s : State) : WritesOnly i s s := by
  constructor <;> intros <;> trivial

theorem WritesOnly.trans {i : Instr} {s t u : State} (h : WritesOnly i s t) (k : WritesOnly i t u) :
    WritesOnly i s u where
  cfg := k.cfg.trans h.cfg
  host := k.host.trans h.host
  replies := k.replies.trans h.replies
  addr hi := (k.addr hi).trans (h.addr hi)
  ram hi := (k.ram hi).trans (h.ram hi)
  crc hi := (k.crc hi).trans (h.crc hi)
  data hi := (k.data hi).trans (h.data hi)
  reg hi := (k.reg hi).trans (h.reg hi)
  search hi := by
    obtain ⟨h1, h2, h3, h4, h5⟩ := h.search hi
    obtain ⟨k1, k2, k3, k4, k5⟩ := k.search hi
    exact ⟨k1.trans h1, k2.trans h2, k3.trans h3, k4.trans h4, k5.trans h5⟩
  delay hi := (k.delay hi).trans (h.delay hi)
  ctrl hi := (k.ctrl hi).trans (h.ctrl hi)
  pwrEn := k.pwrEn.trans h.pwrEn
  pwrPol := k.pwrPol.trans h.pwrPol
  pres hi := (k.pres hi).trans (h.pres hi)
  bit hi := (k.bit hi).trans (h.bit hi)
  pwrExt hi := (k.pwrExt hi).trans (h.pwrExt hi)
  crcOk hi := (k.crcOk hi).trans (h.crcOk hi)
  resOk hi := (k.resOk hi).trans (h.resOk hi)

/-! ## Parts of a command -/

/-- A part of the command `i`, begun in `s`, has written only what `i` may write; `ERR` and `STICKY` are as they were
while it goes on, and record its error if it has aborted (R220). -/
def Flow.PartOf (i : Instr) (s : State) : Flow → Prop
  | .go t => WritesOnly i s t ∧ t.stat.err = s.stat.err ∧ t.sticky = s.sticky
  | .aborted t => WritesOnly i s t ∧ t.sticky = s.sticky ||| t.stat.err.stickyBit

/-- A part that follows a write of the command's own. -/
theorem Flow.PartOf.after {i : Instr} {s t : State} {f : Flow} (hf : f.PartOf i t) (hw : WritesOnly i s t)
    (he : t.stat.err = s.stat.err) (hs : t.sticky = s.sticky) : f.PartOf i s := by
  cases f with
  | go u =>
    obtain ⟨kw, ke, ks⟩ := hf
    exact ⟨hw.trans kw, ke.trans he, ks.trans hs⟩
  | aborted u =>
    obtain ⟨kw, ks⟩ := hf
    exact ⟨hw.trans kw, hs ▸ ks⟩

theorem Flow.PartOf.andThen {i : Instr} {s : State} {f : Flow} {g : State → Flow} (hf : f.PartOf i s)
    (hg : ∀ t, (g t).PartOf i t) : (f.andThen g).PartOf i s := by
  cases f with
  | go t =>
    obtain ⟨hw, he, hs⟩ := hf
    exact .after (hg t) hw he hs
  | aborted t => exact hf

theorem Flow.PartOf.writesOnly {i : Instr} {s : State} {f : Flow} (h : f.PartOf i s) : WritesOnly i s f.state := by
  cases f with
  | go t => exact h.1
  | aborted t => exact h.1

/-- A part that starts without an error leaves in `ERR` the one error that it adds to `STICKY`. -/
theorem Flow.PartOf.sticky {i : Instr} {s : State} {f : Flow} (h : f.PartOf i s) (he : s.stat.err = .none) :
    f.state.sticky = s.sticky ||| f.state.stat.err.stickyBit := by
  cases f with
  | go t =>
    obtain ⟨-, hte, hts⟩ := h
    rw [Flow.state_go, hts, hte, he]
    exact (BitVec.or_zero).symm
  | aborted t => exact h.2

/-- An abort is a part of every command, and writes `ERR` and `STICKY` only. -/
theorem abort_partOf (i : Instr) (e : Err) (s : State) : (abort e s).PartOf i s :=
  ⟨{ WritesOnly.refl i s with }, rfl⟩

/-! ## The shared operations -/

theorem busReset_writesOnly {i : Instr} (hi : writesPres i = true) (s : State) : WritesOnly i s (busReset s) :=
  { WritesOnly.refl i s with pres := fun h => nomatch hi.symm.trans h }

theorem resetOrAbort_partOf {i : Instr} (hi : writesPres i = true) (s : State) : (resetOrAbort s).PartOf i s := by
  have hReset := busReset_writesOnly hi s
  unfold resetOrAbort
  dsimp only
  split
  · exact ⟨hReset, rfl, rfl⟩
  · exact .after (abort_partOf i .noPres _) hReset rfl rfl

theorem writeBytes_writesOnly (i : Instr) (vs : List Byte) (s : State) : WritesOnly i s (s.writeBytes vs) :=
  { WritesOnly.refl i s with }

theorem writeBytes_partOf (i : Instr) (vs : List Byte) (s : State) : (Flow.go (s.writeBytes vs)).PartOf i s :=
  ⟨writeBytes_writesOnly i vs s, rfl, rfl⟩

theorem select_partOf {i : Instr} (hi : writesPres i = true) (all : Bool) (s : State) : (select all s).PartOf i s := by
  cases all with
  | false => exact (resetOrAbort_partOf hi s).andThen fun t => writeBytes_partOf i _ t
  | true => exact (resetOrAbort_partOf hi s).andThen fun t => writeBytes_partOf i _ t

theorem writeScratch_partOf {i : Instr} (hi : writesPres i = true) (s : State) : (writeScratch s).PartOf i s :=
  (select_partOf hi false s).andThen fun t => writeBytes_partOf i _ t

theorem powerPhase_partOf {i : Instr} (hi : isConvt i = true) (d : BitVec 16) (wait : Bool) (s : State) :
    (Flow.go (powerPhase d wait s)).PartOf i s := by
  rw [powerPhase_eq]
  exact ⟨{ WritesOnly.refl i s with delay := fun h => nomatch hi.symm.trans h }, rfl, rfl⟩

theorem prologue_writesOnly (i : Instr) (s : State) : WritesOnly i s (prologue s) := { WritesOnly.refl i s with }

/-! ## `FINDALL` (R152) -/

/-- A descent is a part of `FINDALL`. -/
theorem descent_partOf (s : State) : (descent s).PartOf .findall s := by
  obtain ⟨x, m, es, -, -, hEnd⟩ := descent_spec s
  generalize descent s = f at hEnd
  cases hEnd with
  | noPresence | collision =>
    exact .after (abort_partOf _ _ _) { WritesOnly.refl _ s with search := nofun, pres := nofun } rfl rfl
  | checksum | overflow =>
    exact .after (abort_partOf _ _ _) { WritesOnly.refl _ s with
      search := nofun, pres := nofun, crc := nofun } rfl rfl
  | known | found =>
    exact ⟨{ WritesOnly.refl _ s with search := nofun, pres := nofun, crc := nofun, reg := nofun }, rfl, rfl⟩

theorem startPass_writesOnly (s : State) : WritesOnly .findall s (startPass s) :=
  { WritesOnly.refl _ s with search := nofun }

/-- How a turn of a pass ends: aborted, exhausted, or with more to find. -/
theorem passTurn_cases (s : State) :
    (∃ t, descent s = .aborted t ∧ passTurn s = { t with busy := false }) ∨
    (∃ t, descent s = .go t ∧ t.lastd = 0 ∧ passTurn s = { t with stat.srchDone := true, busy := false }) ∨
    (∃ t, descent s = .go t ∧ t.lastd ≠ 0 ∧ passTurn s = { t with busy := true }) := by
  unfold passTurn
  cases descent s with
  | aborted t => exact .inl ⟨t, rfl, rfl⟩
  | go t =>
    dsimp only
    split
    · next hl => exact .inr (.inl ⟨t, rfl, hl, rfl⟩)
    · next hl => exact .inr (.inr ⟨t, rfl, hl, rfl⟩)

theorem passTurn_writesOnly (s : State) : WritesOnly .findall s (passTurn s) := by
  have hDescent := (descent_partOf s).writesOnly
  obtain ⟨t, hd, hp⟩ | ⟨t, hd, -, hp⟩ | ⟨t, hd, -, hp⟩ := passTurn_cases s
  all_goals
    rw [hd] at hDescent
    rw [hp]
    exact hDescent.trans { WritesOnly.refl _ t with search := nofun }

theorem continuePass_writesOnly (s : State) : WritesOnly .findall s (continuePass s) :=
  runPass_keeps (P := WritesOnly .findall s) (fun t h => h.trans (passTurn_writesOnly t)) _ (.refl _ s)

/-- A turn that starts without an error records the one that ends it; a pass that goes on has none. -/
theorem passTurn_sticky {s : State} (he : s.stat.err = .none) :
    (passTurn s).sticky = s.sticky ||| (passTurn s).stat.err.stickyBit ∧
      ((passTurn s).busy = true → (passTurn s).stat.err = .none) := by
  have hPart := descent_partOf s
  have hSticky := hPart.sticky he
  obtain ⟨t, hd, hp⟩ | ⟨t, hd, -, hp⟩ | ⟨t, hd, -, hp⟩ := passTurn_cases s
  all_goals
    rw [hd] at hPart hSticky
    rw [hp]
  · exact ⟨hSticky, nofun⟩
  · exact ⟨hSticky, nofun⟩
  · obtain ⟨-, hErr, -⟩ := hPart
    exact ⟨hSticky, fun _ => hErr.trans he⟩

theorem continuePass_sticky {s : State} (he : s.stat.err = .none) :
    (continuePass s).sticky = s.sticky ||| (continuePass s).stat.err.stickyBit := by
  refine (runPass_last (P := fun t => t.sticky = s.sticky ||| t.stat.err.stickyBit ∧
    (t.busy = true → t.stat.err = .none)) s.cfg.nDev (passTurn_sticky he) ?_).1
  rintro t hb ⟨hs, hNone⟩
  obtain ⟨ks, kNone⟩ := passTurn_sticky (hNone hb)
  refine ⟨?_, kNone⟩
  rw [ks, hs, hNone hb]
  exact congrArg (· ||| _) BitVec.or_zero

theorem descent_reg_prefix (s : State) : s.reg <+: (descent s).state.reg := by
  obtain ⟨x, m, es, -, -, hEnd⟩ := descent_spec s
  generalize descent s = f at hEnd
  cases hEnd with
  | found => exact List.prefix_append s.reg [x]
  | _ => exact List.prefix_rfl

theorem passTurn_reg_prefix (s : State) : s.reg <+: (passTurn s).reg := by
  have hDescent := descent_reg_prefix s
  obtain ⟨t, hd, hp⟩ | ⟨t, hd, -, hp⟩ | ⟨t, hd, -, hp⟩ := passTurn_cases s
  all_goals
    rw [hd] at hDescent
    rw [hp]
    exact hDescent

theorem continuePass_reg_prefix (s : State) : s.reg <+: (continuePass s).reg :=
  runPass_keeps (P := fun t => s.reg <+: t.reg) (fun t h => h.trans (passTurn_reg_prefix t)) _ List.prefix_rfl

/-! ## Every command -/

/-- A command whose body is a part of it: what it writes, and its error recorded in `STICKY`. -/
theorem command_effect {i : Instr} {body : State → Flow} {s t : State} (h : command body s = .next t)
    (hbody : ∀ u, (body u).PartOf i u) : WritesOnly i s t ∧ t.sticky = s.sticky ||| t.stat.err.stickyBit := by
  rw [command_eq_next h]
  exact ⟨(prologue_writesOnly i s).trans (hbody _).writesOnly, (hbody _).sticky rfl⟩

/-- What the execution of a command writes (R10, R18), and its error recorded in `STICKY` (R19, R220). -/
theorem exec_effect {i : Instr} {s t : State} (h : exec i s = .next t) :
    WritesOnly i s t ∧ t.sticky = s.sticky ||| t.stat.err.stickyBit := by
  cases i with dsimp only [exec] at h
  | findall =>
    rw [command_eq_next h]
    exact ⟨((prologue_writesOnly _ s).trans (startPass_writesOnly _)).trans (continuePass_writesOnly _),
      continuePass_sticky (s := startPass (prologue s)) rfl⟩
  | nop => exact command_effect h fun s => ⟨.refl _ s, rfl, rfl⟩
  | reset => exact command_effect h fun s => ⟨busReset_writesOnly rfl s, rfl, rfl⟩
  | wbit b => exact command_effect h fun s => ⟨{ WritesOnly.refl _ s with }, rfl, rfl⟩
  | rbit => exact command_effect h fun s => ⟨{ WritesOnly.refl _ s with bit := nofun }, rfl, rfl⟩
  | wbyte v => exact command_effect h (writeBytes_partOf _ [v])
  | rbyte => exact command_effect h fun s => ⟨{ WritesOnly.refl _ s with data := nofun }, rfl, rfl⟩
  | crci _ | crcb _ | crcd => exact command_effect h fun s => ⟨{ WritesOnly.refl _ s with crc := nofun }, rfl, rfl⟩
  | crcrom | crcram =>
    exact command_effect h fun s => ⟨{ WritesOnly.refl _ s with crc := nofun, crcOk := nofun }, rfl, rfl⟩
  | matchrom => exact command_effect h (select_partOf rfl false)
  | skip => exact command_effect h (select_partOf rfl true)
  | rdrom =>
    exact command_effect h fun s => (resetOrAbort_partOf rfl s).andThen fun t =>
      ⟨{ WritesOnly.refl _ t with addr := nofun }, rfl, rfl⟩
  | ldaddr index =>
    refine command_effect h fun s => ?_
    cases s.reg[index]? with
    | some a => exact ⟨{ WritesOnly.refl _ s with addr := nofun }, rfl, rfl⟩
    | none => exact abort_partOf _ .idx s
  | clrreg => exact command_effect h fun s => ⟨{ WritesOnly.refl _ s with reg := nofun }, rfl, rfl⟩
  | rdsp =>
    exact command_effect h fun s => (select_partOf rfl false s).andThen fun t =>
      ⟨{ WritesOnly.refl _ t with ram := nofun }, rfl, rfl⟩
  | wrsp word =>
    exact command_effect h fun s =>
      .after (writeScratch_partOf rfl _) { WritesOnly.refl _ s with ram := nofun } rfl rfl
  | pwrq all =>
    exact command_effect h fun s =>
      .after ((select_partOf rfl all _).andThen fun t => ⟨{ WritesOnly.refl _ t with pwrExt := nofun }, rfl, rfl⟩)
        { WritesOnly.refl _ s with pwrExt := nofun } rfl rfl
  | convt all wait =>
    exact command_effect h fun s =>
      .after ((select_partOf rfl all _).andThen fun t =>
          .after (powerPhase_partOf rfl _ wait _) (writeBytes_writesOnly _ _ t) rfl rfl)
        { WritesOnly.refl _ s with delay := nofun } rfl rfl
  | setres bits =>
    refine command_effect h fun s => ?_
    dsimp only
    split
    · exact .after (abort_partOf _ .unsup _) { WritesOnly.refl _ s with resOk := nofun } rfl rfl
    · split
      · exact .after (abort_partOf _ .unsup _) { WritesOnly.refl _ s with resOk := nofun } rfl rfl
      · exact .after ((writeScratch_partOf rfl _).andThen fun t =>
            ⟨{ WritesOnly.refl _ t with resOk := nofun }, rfl, rfl⟩)
          { WritesOnly.refl _ s with ram := nofun, resOk := nofun } rfl rfl
  | init =>
    exact command_effect h fun s =>
      .after ((select_partOf rfl true _).andThen fun t =>
          ⟨{ WritesOnly.refl _ t with pwrExt := nofun, ctrl := nofun }, rfl, rfl⟩)
        { WritesOnly.refl _ s with reg := nofun, ram := nofun, pwrExt := nofun, ctrl := nofun } rfl rfl

theorem Advances.writesOnly {i : Instr} {s t : State} (h : Advances i s t) : WritesOnly i s t := by
  rcases h.cases with hExec | ⟨rfl, -, rfl⟩
  · exact (exec_effect hExec).1
  · exact continuePass_writesOnly s

/-- Settles O48: each command is made of parts that write only its own state. -/
theorem commandsWriteOnlyTheirState : Obligations.CommandsWriteOnlyTheirState := by
  intro i s t h
  have w := h.writesOnly
  exact ⟨w.cfg, w.host, w.replies, w.addr, w.ram, w.crc, w.data, w.reg, w.search, w.delay, w.ctrl, w.pwrEn, w.pwrPol,
    w.pres, w.bit, w.pwrExt, w.crcOk, w.resOk⟩

/-- Settles O49: a command adds to `STICKY` the flag of the code it leaves in `ERR`, and that flag only. -/
theorem stickyRecordsEveryError : Obligations.StickyRecordsEveryError := by
  intro i s t h k h1 h7
  have hSticky : t.sticky = (raise t.stat.err s).sticky := by
    rcases h with hExec | ⟨-, hGoes, hClean⟩
    · exact (exec_effect hExec).2
    · rw [hGoes.eq]
      exact continuePass_sticky hClean.noError
  have hFlag := raise_stickyFlag t.stat.err s k h1 h7
  rw [State.stickyFlag, ← hSticky] at hFlag
  rw [State.stickyFlag, hFlag, Bool.or_eq_true, decide_eq_true_iff]

/-- Settles O52: only `FINDALL` adds to the registry, at its end, and only `CLRREG` and `INIT` write it besides. -/
theorem registryOnlyGrows : Obligations.RegistryOnlyGrows := by
  intro i s t h hClrreg hInit
  have hWrites := h.writesOnly
  cases i with
  | clrreg => exact absurd rfl hClrreg
  | init => exact absurd rfl hInit
  | findall =>
    rcases h.cases with hExec | ⟨-, -, rfl⟩
    · rw [command_eq_next (show execFindall s = _ from hExec)]
      exact continuePass_reg_prefix (startPass (prologue s))
    · exact continuePass_reg_prefix s
  | _ => exact hWrites.reg rfl ▸ List.prefix_rfl

end Sys2Proof.Machine

/-! SUPPORT. The invariants of spec/10_state.md R36: at reset, and kept by every step. -/

namespace Sys2Proof.Machine

/-- Settles O10: the reset values are the definition of the reset state. -/
theorem resetValues : Obligations.ResetValues :=
  ⟨rfl, rfl, rfl, rfl, rfl, rfl, rfl, rfl, rfl, rfl, rfl, rfl, rfl, rfl, rfl, rfl⟩

/-! ## The invariants with no pass under way -/

/-- The invariants (a) to (g) of R36, also in the middle of a pass: those of the state as if no pass were under way. -/
abbrev FreeInv (s : State) : Prop := Inv { s with busy := false }

theorem Inv.free {s : State} (h : Inv s) : FreeInv s := { h with passClean := nofun }

theorem FreeInv.inv {s : State} (h : FreeInv s) (hPass : s.busy = true → PassClean s) : Inv s :=
  { h with passClean := hPass }

theorem FreeInv.inv_of_not_busy {s : State} (h : FreeInv s) (hb : s.busy = false) : Inv s :=
  h.inv fun hBusy => nomatch hb.symm.trans hBusy

/-- R36 (f) holds of every error code. -/
theorem Err.code_le (e : Err) : e.code.toNat ≤ 7 := by cases e <;> decide

/-- Every piece of state that the invariants speak of has its reset value after `rst`. -/
theorem hardReset_inv (s : State) : Inv (hardReset s) where
  count_le := Nat.zero_le _
  distinct := List.nodup_nil
  checked := nofun
  lastd_le := Nat.zero_le _
  mark_le := Nat.zero_le _
  released := rfl
  unpowered := rfl
  notCritical := rfl
  err_le := Nat.zero_le _
  delay_mem _ := List.mem_cons_self
  passClean := nofun

/-- Settles O46: the invariants do not speak of the trace, in which alone `rst` leaves anything behind. -/
theorem resetMeetsInvariants : Obligations.ResetMeetsInvariants :=
  { hardReset_inv State.reset with passClean := nofun }

/-! ## Pins between commands (R36 (e)) -/

/-- R36 (e): the data line released, the power line off, no critical window. -/
structure Line.AtRest (l : Line) : Prop where
  dqOe : l.dqOe = false
  pwrOn : l.pwrOn = false
  crit : l.crit = false

theorem Inv.atRest {s : State} (h : Inv s) : s.line.AtRest := ⟨h.released, h.unpowered, h.notCritical⟩

theorem SlotEvents.atRest {l : Line} {es : List Event} (h : SlotEvents l es) (hl : l.AtRest) : (l.play es).AtRest :=
  ⟨h.dqOe hl.dqOe, h.pwrOn.trans hl.pwrOn, h.crit hl.crit⟩

/-- A power phase ends with what it began undone (R184). -/
theorem wirePower_atRest (c : Ctrl) (d : BitVec 16) (wait : Bool) {l : Line} (hl : l.AtRest) :
    (l.play (wirePower c d wait)).AtRest := by
  unfold wirePower
  split
  · split
    · exact ⟨hl.dqOe, rfl, hl.crit⟩
    · exact ⟨rfl, hl.pwrOn, hl.crit⟩
  · split
    · exact ⟨hl.dqOe, hl.pwrOn, hl.crit⟩
    · exact hl

theorem CommandEvents.atRest {i : Instr} {l : Line} {c : Ctrl} {es : List Event} (h : CommandEvents i l c es)
    (hl : l.AtRest) : (l.play es).AtRest := by
  cases h with
  | slots hes => exact hes.atRest hl
  | powered _ hes d wait =>
    rw [Line.play_append]
    exact wirePower_atRest c d wait (hes.atRest hl)

/-! ## A pass -/

/-- A descent keeps the invariants: it registers only an address that is valid, new, and has room (R150, R151). -/
theorem descent_freeInv {s : State} (h : FreeInv s) : FreeInv (descent s).state := by
  obtain ⟨x, m, es, hes, hm, hEnd⟩ := descent_spec s
  have hLine := hes.atRest h.atRest
  generalize s.line.play es = l at hEnd hLine
  generalize descent s = f at hEnd
  obtain ⟨hdq, hpw, hcr⟩ := hLine
  cases hEnd with
  | noPresence =>
    exact { h with released := hdq, unpowered := hpw, notCritical := hcr, err_le := Err.code_le _, passClean := nofun }
  | collision | checksum | overflow =>
    exact { h with
      mark_le := hm, released := hdq, unpowered := hpw, notCritical := hcr, err_le := Err.code_le _
      passClean := nofun }
  | known =>
    exact { h with
      lastd_le := hm, mark_le := hm, released := hdq, unpowered := hpw, notCritical := hcr, passClean := nofun }
  | found hv hx hn =>
    have hRoom : s.reg.length < s.cfg.nDev := lt_of_le_of_ne h.count_le hn
    exact { h with
      count_le := List.length_append.trans_le hRoom
      distinct := List.nodup_append_comm.1 (List.nodup_cons.2 ⟨hx, h.distinct⟩)
      checked := fun a ha => (List.mem_append.1 ha).elim (h.checked a) fun hax => List.mem_singleton.1 hax ▸ hv
      lastd_le := hm, mark_le := hm, released := hdq, unpowered := hpw, notCritical := hcr, passClean := nofun }

/-- A descent that runs to its end leaves `ERR` and `SRCH_DONE` alone, and `LASTD` is its mark (R152, step 7). -/
theorem descent_go_fields {s t : State} (h : descent s = .go t) :
    t.stat.err = s.stat.err ∧ t.stat.srchDone = s.stat.srchDone ∧ t.mark = t.lastd := by
  obtain ⟨x, m, es, -, -, hEnd⟩ := descent_spec s
  rw [h] at hEnd
  cases hEnd with
  | known => exact ⟨rfl, rfl, rfl⟩
  | found => exact ⟨rfl, rfl, rfl⟩

/-- A turn of a pass that starts without an error and not at its end keeps the invariants, and establishes that of a
pass under way if there is more to find. -/
theorem passTurn_inv {s : State} (h : FreeInv s) (hErr : s.stat.err = .none) (hDone : s.stat.srchDone = false) :
    Inv (passTurn s) := by
  have hDescent := descent_freeInv h
  obtain ⟨t, hd, hp⟩ | ⟨t, hd, -, hp⟩ | ⟨t, hd, hMore, hp⟩ := passTurn_cases s
  all_goals
    rw [hd] at hDescent
    rw [hp]
  · exact hDescent
  · exact { hDescent with passClean := nofun }
  · obtain ⟨hte, htd, htm⟩ := descent_go_fields hd
    exact FreeInv.inv hDescent fun _ => ⟨hte.trans hErr, htd.trans hDone, htm, hMore⟩

theorem continuePass_inv {s : State} (h : FreeInv s) (hErr : s.stat.err = .none) (hDone : s.stat.srchDone = false) :
    Inv (continuePass s) :=
  runPass_last s.cfg.nDev (passTurn_inv h hErr hDone) fun _ hb ht =>
    passTurn_inv ht.free (ht.passClean hb).noError (ht.passClean hb).notDone

theorem startPass_freeInv {s : State} (h : FreeInv s) : FreeInv (startPass s) :=
  { h with lastd_le := Nat.zero_le _, mark_le := Nat.zero_le _, passClean := nofun }

theorem prologue_freeInv {s : State} (h : FreeInv s) : FreeInv (prologue s) :=
  { h with err_le := Nat.zero_le _, passClean := nofun }

/-! ## Every command -/

/-- The delays that `ConvDelay` can give where it has the value of R182. -/
theorem convDelay_spec_mem (all : Bool) (family cfg : Byte) :
    convDelay .spec all family cfg ∈ ([0, 94, 150, 188, 375, 750] : List (BitVec 16)) := by
  unfold convDelay
  split
  · decide
  · split
    · next r hr =>
      have hRows : ∀ r ∈ DelayTable.spec.rows, r.millis ∈ ([0, 94, 150, 188, 375, 750] : List (BitVec 16)) := by
        decide
      exact hRows r (List.mem_of_find?_eq_some hr)
    · decide

theorem select_writesOnly {all : Bool} {s t : State} (h : (select all s).state = t) : WritesOnly .skip s t :=
  h ▸ (select_partOf rfl all s).writesOnly

/-- A command other than `FINDALL` leaves the registry as it was or empty. -/
theorem exec_reg {i : Instr} {s t : State} (hi : i ≠ .findall) (h : exec i s = .next t) :
    t.reg = s.reg ∨ t.reg = [] := by
  have hWrites := (exec_effect h).1
  cases i with
  | findall => exact absurd rfl hi
  | clrreg => exact .inr (congrArg State.reg (command_eq_next (show execClrreg s = _ from h)))
  | init =>
    rw [command_eq_next (show execInit s = _ from h)]
    refine .inr (Flow.state_andThen (P := fun u => u.reg = []) (fun u hu => ?_) fun u hu => ?_)
    all_goals exact (select_writesOnly (all := true) (congrArg Flow.state hu)).reg rfl
  | _ => exact .inl (hWrites.reg rfl)

/-- `DELAY` after a command is what it was, 0 or a conversion delay (R185). -/
theorem exec_delay {i : Instr} {s t : State} (h : exec i s = .next t) :
    t.delay = s.delay ∨ t.delay = 0 ∨ ∃ all family cfg, t.delay = convDelay s.cfg.conv all family cfg := by
  have hWrites := (exec_effect h).1
  cases i with
  | convt all wait =>
    rw [command_eq_next (show execConvt all wait s = _ from h)]
    refine .inr (Flow.state_andThen (P := fun u => u.delay = 0 ∨ ∃ all family cfg,
      u.delay = convDelay s.cfg.conv all family cfg) (fun u hu => .inl ?_) fun u hu => ?_)
    · exact (select_writesOnly (congrArg Flow.state hu)).delay rfl
    · have hCfg : u.cfg = s.cfg := (select_writesOnly (congrArg Flow.state hu)).cfg
      rw [Flow.state_go, powerPhase_eq, hCfg]
      dsimp only
      split
      · exact .inl rfl
      · exact .inr ⟨all, _, _, rfl⟩
  | _ => exact .inl (hWrites.delay rfl)

/-- A command keeps the invariants: `FINDALL` by its turns; any other by what it leaves of the search state, the
registry, `DELAY` and the pins. -/
theorem exec_inv {i : Instr} {s t : State} (hs : Inv s) (hb : s.busy = false) (h : exec i s = .next t) : Inv t := by
  by_cases hi : i = .findall
  · subst hi
    rw [command_eq_next (show execFindall s = _ from h)]
    exact continuePass_inv (startPass_freeInv (prologue_freeInv hs.free)) rfl rfl
  have hWrites := (exec_effect h).1
  obtain ⟨-, hLastd, hMark, hBusy, -⟩ := hWrites.search hi
  obtain ⟨es, hes, hl⟩ := Advances.events (.inl h)
  have hLine : t.line.AtRest := hl ▸ hes.atRest hs.atRest
  have hReg : t.reg.length ≤ t.cfg.nDev ∧ t.reg.Nodup ∧ ∀ a ∈ t.reg, ValidRom a := by
    rcases exec_reg hi h with hr | hr <;> rw [hr]
    · exact ⟨hWrites.cfg ▸ hs.count_le, hs.distinct, hs.checked⟩
    · exact ⟨Nat.zero_le _, List.nodup_nil, nofun⟩
  have hDelay (hSpec : t.cfg.conv = .spec) : t.delay ∈ ([0, 94, 150, 188, 375, 750] : List (BitVec 16)) := by
    rw [hWrites.cfg] at hSpec
    rcases exec_delay h with hd | hd | ⟨all, family, cfg, hd⟩ <;> rw [hd]
    · exact hs.delay_mem hSpec
    · exact List.mem_cons_self
    · rw [hSpec]
      exact convDelay_spec_mem all family cfg
  obtain ⟨hCount, hDistinct, hChecked⟩ := hReg
  exact {
    count_le := hCount
    distinct := hDistinct
    checked := hChecked
    lastd_le := hLastd ▸ hs.lastd_le
    mark_le := hMark ▸ hs.mark_le
    released := hLine.dqOe
    unpowered := hLine.pwrOn
    notCritical := hLine.crit
    err_le := Err.code_le _
    delay_mem := hDelay
    passClean := fun h => nomatch (hBusy.trans hb).symm.trans h }

/-! ## Every move -/

theorem illegalWord_inv {s : State} (hs : Inv s) (hb : s.busy = false) : Inv (illegalWord s) :=
  FreeInv.inv_of_not_busy { hs with err_le := Err.code_le _, passClean := nofun } hb

theorem runWord_inv {w : Word} {s t : State} (hs : Inv s) (hb : s.busy = false) (h : runWord w s = .next t) :
    Inv t := by
  unfold runWord at h
  split at h
  · exact exec_inv hs hb h
  · exact Host.Outcome.next.inj h ▸ illegalWord_inv hs hb

/-- The state that the host can write by a register (R42). -/
theorem regWrite_shape (n : RegNo) (v : Word) (s : State) : ∃ sticky ctrl data crc addr ram, regWrite n v s =
    { s with sticky := sticky, ctrl := ctrl, data := data, crc := crc, addr := addr, ram := ram } := by
  unfold regWrite
  split <;> exact ⟨_, _, _, _, _, _, rfl⟩

/-- No register that the host can write holds anything that the invariants speak of. -/
theorem regWrite_inv {n : RegNo} {v : Word} {s : State} (hs : Inv s) (hb : s.busy = false) : Inv (regWrite n v s) := by
  obtain ⟨_, _, _, _, _, _, hShape⟩ := regWrite_shape n v s
  rw [hShape]
  exact FreeInv.inv_of_not_busy { hs with passClean := nofun } hb

/-- A command cut by `rst` ends in the reset state, wherever it was cut (R247). -/
theorem commandCut_inv {w : Word} {k : Nat} {s t : State} (h : commandCut w k s = .next t) : Inv t := by
  unfold commandCut at h
  split at h
  · exact Host.Outcome.next.inj h ▸ hardReset_inv _
  · cases h
  · cases h

theorem hostMove_inv {m : HostMove} {s t : State} (hs : Inv s) (hb : s.busy = false) (h : hostMove m s = .next t) :
    Inv t := by
  cases m with dsimp only [hostMove] at h
  | read n => exact Host.Outcome.next.inj h ▸ FreeInv.inv_of_not_busy { hs with passClean := nofun } hb
  | write n v =>
    split at h
    · exact runWord_inv hs hb h
    · exact Host.Outcome.next.inj h ▸ regWrite_inv hs hb
  | rst => exact Host.Outcome.next.inj h ▸ hardReset_inv s
  | commandCut w k => exact commandCut_inv h

theorem whileBusy_inv {s t : State} (hs : Inv s) (hb : s.busy = true) (h : whileBusy s = .next t) : Inv t := by
  unfold whileBusy at h
  split at h
  · exact Host.Outcome.next.inj h ▸ hardReset_inv _
  · have hClean := hs.passClean hb
    exact Host.Outcome.next.inj h ▸ continuePass_inv hs.free hClean.noError hClean.notDone

/-- Settles O47: a step is a move at a free host port, nothing at all, or the continuation of a pass. -/
theorem stepKeepsInvariants : Obligations.StepKeepsInvariants := by
  intro s t hs h
  cases hb : s.busy with
  | true => exact whileBusy_inv hs hb (step_of_busy hb ▸ h)
  | false =>
    cases hh : s.host with
    | nil =>
      rw [step, hb, nextMove, hh] at h
      exact Host.Outcome.next.inj h ▸ hs
    | cons m rest =>
      rw [step_of_move hb hh] at h
      have hTaken : Inv { s with host := rest } := FreeInv.inv_of_not_busy { hs with passClean := nofun } hb
      exact hostMove_inv hTaken hb h

end Sys2Proof.Machine

/-! SUPPORT. The words the host reads (spec/10_state.md R18 to R20, R23): which field stands at which bit. -/

namespace Sys2Proof.Machine

/-! ## `STAT` (R18) -/

/-- The bits of the word of `STAT`. -/
theorem Stat.word_bit (f : Stat) (i : Nat) :
    f.word.getLsbD i =
      if i = 0 then f.pres else if i = 1 then f.bit else if i = 2 then f.pwrExt else if i = 3 then f.crcOk
      else if i = 4 then f.resOk else if i = 5 then f.srchDone else if i < 8 then false
      else f.err.code.getLsbD (i - 8) := by
  unfold Stat.word
  change BitVec.getLsbD (w := 20 + 4 + 2 + 1 + 1 + 1 + 1 + 1 + 1) _ i = _
  simp only [BitVec.getLsbD_append]
  rcases i with _ | _ | _ | _ | _ | _ | i
  iterate 6 simp
  by_cases h8 : i < 2
  · simp [h8]
  · have h2 : 2 ≤ i := by omega
    by_cases h12 : i - 2 < 4
    · simp [h2, h8, h12]
    · simp [h8, h12, BitVec.getLsbD_of_ge f.err.code (i - 2) (by omega)]

/-- The bits above the flags, in which alone the fields wider than one bit stand. -/
theorem Stat.word_bit_above (f : Stat) (i : Nat) (h : 6 ≤ i) :
    f.word.getLsbD i = if i < 8 then false else f.err.code.getLsbD (i - 8) := by
  rw [Stat.word_bit, if_neg (by omega), if_neg (by omega), if_neg (by omega), if_neg (by omega), if_neg (by omega),
    if_neg (by omega)]

/-- Settles O14: the fields are read off the bits of the word. -/
theorem statWordLayout : Obligations.StatWordLayout := by
  intro s
  rw [show regRead 0x01 s = s.stat.word from rfl]
  refine ⟨s.stat.word_bit 0, s.stat.word_bit 1, s.stat.word_bit 2, s.stat.word_bit 3, s.stat.word_bit 4,
    s.stat.word_bit 5, ?_, ?_, ?_⟩ <;> apply BitVec.eq_of_getLsbD_eq <;> intro i hi <;>
    rw [BitVec.getLsbD_extractLsb', Stat.word_bit_above _ _ (by omega)]
  · simp [show 6 + i < 8 by omega]
  · simp [hi]
  · simp [hi, BitVec.getLsbD_of_ge s.stat.err.code (12 + i - 8) (by omega)]

/-! ## `STICKY`, `CTRL`, `SRCH` (R19, R20, R23) -/

/-- The bits of the word of `STICKY`. -/
theorem stickyWord_bit (st : BitVec 7) (i : Nat) :
    (stickyWord st).getLsbD i = if i = 0 then false else st.getLsbD (i - 1) := by
  unfold stickyWord
  change BitVec.getLsbD (w := 24 + 7 + 1) _ i = _
  simp only [BitVec.getLsbD_append]
  by_cases h0 : i = 0
  · simp [h0]
  · by_cases h8 : i - 1 < 7
    · simp [h0, h8]
    · simp [h0, h8, BitVec.getLsbD_of_ge st (i - 1) (by omega)]

theorem Ctrl.word_toNat (c : Ctrl) :
    c.word.toNat = c.parasite.toNat + 2 * c.pwrEn.toNat + 4 * c.pwrPol.toNat := by
  obtain ⟨parasite, pwrEn, pwrPol⟩ := c
  cases parasite <;> cases pwrEn <;> cases pwrPol <;> rfl

theorem srchWord_toNat (lastd mark : BitVec 7) : (srchWord lastd mark).toNat = lastd.toNat + 256 * mark.toNat := by
  unfold srchWord
  change BitVec.toNat (w := 17 + 7 + 1 + 7) _ = _
  rw [BitVec.toNat_append, BitVec.toNat_append, BitVec.toNat_append,
    ← Nat.shiftLeft_add_eq_or_of_lt lastd.isLt, ← Nat.shiftLeft_add_eq_or_of_lt (0#1).isLt,
    ← Nat.shiftLeft_add_eq_or_of_lt mark.isLt]
  simp only [Nat.shiftLeft_eq, BitVec.toNat_ofNat]
  omega

/-! ## Byte arrays (R23) -/

/-- Byte `k` of the word packed from four bytes of an array, the first of them byte `j`. -/
theorem packWord_getElem {n : Nat} (v : Vector Byte n) (j : Nat) (hj : j + 3 < n) (k : Nat) (h : k < 4) :
    (packWord v[j] v[j + 1] v[j + 2] v[j + 3]).extractLsb' (8 * k) 8 = v[j + k] := by
  rw [packWord_byte _ _ _ _ k h]
  rcases (by omega : k = 0 ∨ k = 1 ∨ k = 2 ∨ k = 3) with rfl | rfl | rfl | rfl <;> rfl

theorem packWord_getElem_low {n : Nat} (v : Vector Byte n) (hn : 3 < n) (k : Nat) (h : k < 4) :
    (packWord v[0] v[1] v[2] v[3]).extractLsb' (8 * k) 8 = v[k] := by
  simpa using packWord_getElem v 0 hn k h

/-- Settles O15: bytes by their packing, the other registers by the layout of their words. -/
theorem registerMapLayout : Obligations.RegisterMapLayout := by
  intro s
  refine ⟨packWord_getElem_low s.addr (by decide), packWord_getElem s.addr 4 (by decide),
    packWord_getElem_low s.ram (by decide), packWord_getElem s.ram 4 (by decide),
    packWord_getElem_low s.srom (by decide), packWord_getElem s.srom 4 (by decide),
    BitVec.toNat_setWidth_of_le (by decide), BitVec.toNat_setWidth_of_le (by decide),
    BitVec.toNat_setWidth_of_le (by decide), BitVec.toNat_setWidth_of_le (by decide), fun hCount => ?_,
    srchWord_toNat s.lastd s.mark, s.ctrl.word_toNat, stickyWord_flag s, ?_, stickyWord_bit s.sticky 0, ?_⟩
  · have hRead : (regRead 0x0B s).toNat = (BitVec.ofNat 8 s.count).toNat := BitVec.toNat_setWidth_of_le (by decide)
    rw [hRead, BitVec.toNat_ofNat]
    omega
  · apply BitVec.eq_of_getLsbD_eq
    intro i hi
    rw [BitVec.getLsbD_extractLsb', show regRead 0x02 s = stickyWord s.sticky from rfl, stickyWord_bit]
    simp [hi]
  · apply BitVec.eq_of_getLsbD_eq
    intro i hi
    rw [BitVec.getLsbD_extractLsb', show regRead 0x02 s = stickyWord s.sticky from rfl, stickyWord_bit]
    simp [hi]

end Sys2Proof.Machine

/-! SUPPORT. The host port (spec/20_memory.md section 1): what a register read, a register write, a word written to `CMD`
and a search pass do to the state and to the host, and which commands have no use for the line. -/

namespace Sys2Proof.Machine

/-! ## A word written to `CMD` (R44) -/

theorem runWord_of_decode {w : Word} {i : Instr} (h : decode w = .ok i) (s : State) : runWord w s = exec i s := by
  rw [runWord, h]

/-- Settles O6: a step that writes a word to `CMD` is the run of that word. -/
theorem stepRunsDecodedCommand : Obligations.StepRunsDecodedCommand := by
  intro s w i rest hb hh hd
  rw [step_of_word hb hh, runWord_of_decode hd]

/-! ## Register reads (R41) -/

/-- What the host has been told and will do is no content of a register. -/
theorem regRead_of_host_replies (n : RegNo) (s : State) (host : List HostMove) (replies : List Word) :
    regRead n { s with host := host, replies := replies } = regRead n s := rfl

/-- Settles O13: a read only adds to the replies, on which no register depends. -/
theorem registerReadHasNoEffect : Obligations.RegisterReadHasNoEffect := by
  intro s n rest hb hh
  refine ⟨?_, regRead_of_host_replies n s _ _, rfl⟩
  rw [step_of_move hb hh, hostMove, regRead_of_host_replies n s rest s.replies]

/-- An unmapped number reads 0 (R47). -/
theorem regRead_unmapped {n : RegNo} (h : 0x10 ≤ n.toNat) (s : State) : regRead n s = 0 := by
  unfold regRead
  split
  case h_16 => rfl
  all_goals omega

/-! ## Register writes (R42, R43, R47) -/

/-- The numbers of the registers that a host write changes, `CMD` apart (R23). -/
def readWriteRegs : List Nat := [0x02, 0x03, 0x04, 0x05, 0x06, 0x07, 0x08, 0x09, 0x0A]

theorem regWrite_of_not_readWrite {n : RegNo} (h : n.toNat ∉ readWriteRegs) (v : Word) (s : State) :
    regWrite n v s = s := by
  unfold regWrite
  split
  case h_10 => rfl
  all_goals
    next hn =>
      rw [hn] at h
      exact absurd (by decide) h

theorem step_of_write_not_readWrite {s : State} {n : RegNo} {v : Word} {rest : List HostMove} (hb : s.busy = false)
    (hh : s.host = .write n v :: rest) (h0 : n.toNat ≠ 0) (h : n.toNat ∉ readWriteRegs) :
    step s = .next { s with host := rest } := by
  rw [step_of_write hb hh (fun hn => h0 (congrArg BitVec.toNat hn)), regWrite_of_not_readWrite h]

/-- Settles O17: neither the read-only registers nor the unmapped numbers are among those a write changes. -/
theorem readOnlyAndUnmappedWritesIgnored : Obligations.ReadOnlyAndUnmappedWritesIgnored := by
  intro s n v rest hb hh
  refine ⟨fun hReadOnly => ?_, fun hUnmapped => ⟨?_, regRead_unmapped hUnmapped s⟩⟩
  · have hDisjoint : ∀ k ∈ [0x01, 0x0B, 0x0C, 0x0D, 0x0E, 0x0F], k ≠ 0 ∧ k ∉ readWriteRegs := by decide
    obtain ⟨h0, h⟩ := hDisjoint _ hReadOnly
    exact step_of_write_not_readWrite hb hh h0 h
  · have hBelow : ∀ k ∈ readWriteRegs, k < 0x10 := by decide
    exact step_of_write_not_readWrite hb hh (by omega) fun h => absurd (hBelow _ h) (by omega)

/-- A write to `STICKY` keeps flag `k` where bit `k` is 0 and clears it where it is 1 (R19). -/
theorem stickyClear_flag (st : BitVec 7) (v : Word) (k : Nat) (h1 : 1 ≤ k) (h7 : k ≤ 7) :
    (stickyClear st v).getLsbD (k - 1) = (st.getLsbD (k - 1) && !v.getLsbD k) := by
  have hk : k - 1 < 7 := by omega
  rw [stickyClear, BitVec.getLsbD_and, BitVec.getLsbD_not, BitVec.getLsbD_extractLsb', Nat.add_sub_cancel' h1]
  simp [hk]

/-- Settles O16: each write is the one of its register, with the byte arrays written out. -/
theorem registerWriteEffects : Obligations.RegisterWriteEffects := by
  intro s v rest hb
  have hWrite (n : RegNo) (hn : n ≠ 0) (hh : s.host = .write n v :: rest) :
      step s = .next (regWrite n v { s with host := rest }) := step_of_write hb hh hn
  refine ⟨hWrite 0x03 (by decide), hWrite 0x04 (by decide), hWrite 0x05 (by decide), fun hh => ?_, fun hh => ?_,
    fun hh => ?_, fun hh => ?_, fun hh => ?_, fun hh => ?_⟩
  · rw [← writeFour_addr_low]
    exact hWrite 0x06 (by decide) hh
  · rw [← writeFour_addr_high]
    exact hWrite 0x07 (by decide) hh
  · rw [← writeFour_ram_low]
    exact hWrite 0x08 (by decide) hh
  · rw [← writeFour_ram_high]
    exact hWrite 0x09 (by decide) hh
  · rw [← ram_set_last]
    exact hWrite 0x0A (by decide) hh
  · exact ⟨_, hWrite 0x02 (by decide) hh, stickyClear_flag s.sticky v⟩

/-! ## A pass under way (R45) -/

theorem step_of_pass {s : State} (hb : s.busy = true) (hr : ∀ rest, s.host ≠ .rst :: rest) :
    step s = .next (continuePass s) := by
  rw [step_of_busy hb, whileBusy]
  split
  · next rest hh => exact absurd hh (hr rest)
  · rfl

/-- Settles O8: the pass runs on, and its turns leave the moves to come and the replies alone. -/
theorem runningPassHoldsHostPort : Obligations.RunningPassHoldsHostPort := by
  intro s hb hr
  obtain ⟨-, -, -, -, -, -, hHost, hReplies⟩ := continuePass_frame s
  exact ⟨continuePass s, step_of_pass hb hr, hHost, hReplies⟩

/-! ## Commands that touch no pin (R46) -/

/-- A body that leaves the line as it is, and whatever line it finds leaves the rest of the state the same. -/
def IgnoresLine (body : State → Flow) : Prop :=
  ∀ (s : State) (l : Line),
    (body s).state.line = s.line ∧ (body { s with line := l }).state = { (body s).state with line := l }

/-- A command ignores the line if its body does, for the prologue does. -/
theorem IgnoresLine.command {body : State → Flow} (h : IgnoresLine body) (s : State) (l : Line) :
    ∃ t, command body s = .next t ∧ t.line = s.line ∧
      command body { s with line := l } = .next { t with line := l } := by
  obtain ⟨hLine, hOther⟩ := h (prologue s) l
  exact ⟨_, rfl, hLine, congrArg Host.Outcome.next hOther⟩

/-- Settles O54: no body of these commands has a use for the line; `LDADDR` has none whether its index is in the
registry or not (R133, R227). -/
theorem pinFreeCommands : Obligations.PinFreeCommands := by
  intro i s l hi
  cases i with dsimp only [exec]
  | nop | crci _ | crcb _ | crcd | crcrom | crcram | clrreg => exact IgnoresLine.command (fun _ _ => ⟨rfl, rfl⟩) s l
  | ldaddr index =>
    refine IgnoresLine.command (fun u m => ?_) s l
    dsimp only
    cases u.reg[index]? with
    | some a => exact ⟨rfl, rfl⟩
    | none => exact ⟨rfl, rfl⟩
  | _ => cases hi

end Sys2Proof.Machine

/-! SUPPORT. The command word in both directions (spec/30_encoding.md R60 to R66): what the opcode map says of an operation,
the words that are legal, and the one word of each command. -/

namespace Sys2Proof

/-! ## Bits of `IMM` (R63) -/

/-- The `n` low bits of `IMM`, the bits an operation uses. -/
def lowImm (n : Nat) : BitVec 16 := (BitVec.allOnes n).setWidth 16

@[simp] theorem lowImm_getElem (n i : Nat) (h : i < 16) : (lowImm n)[i] = decide (i < n) := by
  simp [lowImm]

/-- An operation that uses the `n` low bits of `IMM` leaves unused the bits of the word from `16 + n` on. -/
theorem unusedImm_eq_zero_iff (w : Word) (n : Nat) :
    immField w &&& ~~~lowImm n = 0 ↔ w.extractLsb' (16 + n) (16 - n) = 0 := by
  constructor
  · intro h
    apply BitVec.eq_of_getLsbD_eq
    intro i hi
    have hBit := congrArg (BitVec.getLsbD · (n + i)) h
    simpa [immField, hi, show n + i < 16 by omega, Nat.add_assoc] using hBit
  · intro h
    apply BitVec.eq_of_getLsbD_eq
    intro i hi
    by_cases hn : i < n
    · simp [hi, hn]
    · have hBit := congrArg (BitVec.getLsbD · (i - n)) h
      simpa [immField, hi, hn, show i - n < 16 - n by omega, show 16 + n + (i - n) = 16 + i by omega]
        using hBit

/-- An operand of `n` bits, put back into `IMM`, is the part of `IMM` that the operation uses. -/
theorem setWidth_extract_eq_and_lowImm (imm : BitVec 16) (n : Nat) :
    (imm.extractLsb' 0 n).setWidth 16 = imm &&& lowImm n := by
  apply BitVec.eq_of_getLsbD_eq
  intro i hi
  simp [hi, Bool.and_comm]

/-- `IMM[7:0]`, put back into `IMM`. -/
theorem setWidth_byte_eq_and (imm : BitVec 16) : (imm.extractLsb' 0 8).setWidth 16 = imm &&& 0x00FF :=
  setWidth_extract_eq_and_lowImm imm 8

/-- `IMM[0]`, put back into `IMM`. -/
theorem setWidth_bit_eq_and (imm : BitVec 16) : (BitVec.ofBool imm[0]).setWidth 16 = imm &&& 0x0001 := by
  have hBit : BitVec.ofBool imm[0] = imm.extractLsb' 0 1 := by
    apply BitVec.eq_of_getLsbD_eq
    intro i hi
    simp [show i = 0 by omega]
  rw [hBit]
  exact setWidth_extract_eq_and_lowImm imm 1

theorem imm_and_all (imm : BitVec 16) : imm &&& 65535#16 = imm := BitVec.and_allOnes

theorem byte_toNat_le (v : Byte) : v.toNat ≤ 255 := Nat.le_of_lt_succ v.isLt

/-- With no unused bit set, `IMM` is the part of it that the operation uses. -/
theorem and_eq_of_unused_eq_zero {imm used : BitVec 16} (h : imm &&& ~~~used = 0) : imm &&& used = imm := by
  apply BitVec.eq_of_getLsbD_eq
  intro i hi
  have hBit := congrArg (BitVec.getLsbD · i) h
  simpa [hi] using hBit

/-! ## What the opcode map says of an operation (R62 to R64) -/

/-- The 23 assigned values of `OP`. -/
def assignedOps : List Byte :=
  [0x00, 0x01, 0x02, 0x03, 0x04, 0x05, 0x10, 0x11, 0x12, 0x13, 0x14, 0x20, 0x21, 0x22, 0x23, 0x24, 0x25, 0x30, 0x31,
    0x32, 0x33, 0x34, 0x3F]

/-- How many low bits of `IMM` an operation uses (R63). -/
def immBits (op : Byte) : Nat :=
  if op = 0x31 then 16
  else if op ∈ ([0x04, 0x10, 0x11, 0x24, 0x34] : List Byte) then 8
  else if op = 0x02 then 1
  else 0

/-- The row `r` says of the operation of the word `w` what R61 to R64 say, and its command is the one of the fields
of `w`: of them the command's own word has those that the operation uses. -/
structure OpRow.Describes (r : OpRow) (w : Word) : Prop where
  assigned : opField w ∈ assignedOps
  takesAll : r.takesAll = true ↔ opField w = 0x32 ∨ opField w = 0x33
  takesWait : r.takesWait = true ↔ opField w = 0x33
  immUsed : r.immUsed = lowImm (immBits (opField w))
  wf : r.instr.wf = true
  encode_eq : encode r.instr =
    commandWord (opField w) (immField w &&& r.immUsed) (allField w && r.takesAll) (waitField w && r.takesWait)
  tableRow_eq : r.instr.tableRow =
    ⟨~~~commandWord 0 r.immUsed r.takesAll r.takesWait, commandWord (opField w) 0 false false⟩

/-- The opcode map, row by row. -/
theorem opRow_describes {w : Word} {r : OpRow} (h : opRow w = some r) : r.Describes w := by
  unfold opRow at h
  split at h
  case h_24 => cases h
  all_goals
    next hn =>
      have hop := congrArg (BitVec.ofNat 8) hn
      rw [BitVec.ofNat_toNat, BitVec.setWidth_eq] at hop
      cases h
      constructor
      case wf => simp [Instr.wf, byte_toNat_le, -BitVec.extractLsb'_toNat]
      case encode_eq =>
        simp [hop, encode, setWidth_byte_eq_and, setWidth_bit_eq_and, imm_and_all, -BitVec.extractLsb'_toNat]
      all_goals rw [hop]
      case assigned => decide
      all_goals
        dsimp only [Instr.tableRow]
        decide

/-- An assigned operation has a row. -/
theorem opRow_of_assigned {w : Word} (h : opField w ∈ assignedOps) : ∃ r, opRow w = some r := by
  simp only [assignedOps, List.mem_cons, List.not_mem_nil, or_false] at h
  unfold opRow
  rcases h with h | h | h | h | h | h | h | h | h | h | h | h | h | h | h | h | h | h | h | h | h | h | h <;>
    exact ⟨_, by rw [h]; rfl⟩

/-! ## The word of a command (R60, R61) -/

/-- Settles O5: the word has no field that its command does not. -/
theorem encodeOfDecode : Obligations.EncodeOfDecode := by
  intro w i h
  obtain ⟨r, hRow, hRsv, hAll, hWait, hImm, rfl⟩ := decode_eq_ok.1 h
  have hr := opRow_describes hRow
  refine ⟨?_, hr.wf⟩
  rw [hr.encode_eq, and_eq_of_unused_eq_zero hImm, Bool.and_eq_left_iff_imp.2 hAll, Bool.and_eq_left_iff_imp.2 hWait,
    commandWord_fields hRsv]

/-- A word put together decodes to the command of its operation's row if that takes its modifiers and uses its
immediate. -/
theorem decode_commandWord {op : Byte} {imm : BitVec 16} {all wait : Bool} {r : OpRow}
    (hRow : opRow (commandWord op imm all wait) = some r) (hAll : all = true → r.takesAll = true)
    (hWait : wait = true → r.takesWait = true) (hImm : imm &&& ~~~r.immUsed = 0) :
    decode (commandWord op imm all wait) = .ok r.instr :=
  decode_eq_ok.2 ⟨r, hRow, rsvField_commandWord .., by rwa [allField_commandWord], by rwa [waitField_commandWord],
    by rwa [immField_commandWord], rfl⟩

/-- The word of an operation that uses `IMM[7:0]` and takes no modifier. -/
theorem decode_byteWord {op v : Byte} {i : Instr}
    (hRow : opRow (commandWord op (v.setWidth 16) false false) = some { immUsed := 0x00FF, instr := i }) :
    decode (commandWord op (v.setWidth 16) false false) = .ok i :=
  decode_commandWord hRow nofun nofun (setWidth_masked v)

/-- Settles O4: each command's word has the fields that the row of its operation reads it back from. -/
theorem decodeOfEncode : Obligations.DecodeOfEncode := by
  intro i hWf
  cases i with dsimp only [encode]
  | nop | reset | rbit | rbyte | crcd | crcrom | crcram | matchrom | skip | rdrom | findall | clrreg | rdsp | init =>
    decide
  | wbit b => cases b <;> decide
  | pwrq all => cases all <;> decide
  | convt all wait => cases all <;> cases wait <;> decide
  | wbyte v | crci v | crcb v => exact decode_byteWord (by simp [opRow, setWidth_low])
  | ldaddr n | setres n =>
    have hn : n % 256 = n := Nat.mod_eq_of_lt (Nat.lt_succ_of_le (of_decide_eq_true hWf))
    exact decode_byteWord (by simp [opRow, setWidth_low, hn])
  | wrsp word =>
    exact decode_commandWord (r := { immUsed := 0xFFFF, instr := .wrsp word }) (by simp [opRow]) nofun nofun (by simp)

/-! ## The rows of the opcode table (R61, R65) -/

theorem opField_not (w : Word) : opField (~~~w) = ~~~opField w := by
  apply BitVec.eq_of_getLsbD_eq
  intro i hi
  simp [opField, hi, show i < 32 by omega]

theorem rsvField_not (w : Word) : rsvField (~~~w) = ~~~rsvField w := by
  apply BitVec.eq_of_getLsbD_eq
  intro i hi
  simp [rsvField, hi, show 10 + i < 32 by omega]

theorem immField_not (w : Word) : immField (~~~w) = ~~~immField w := by
  apply BitVec.eq_of_getLsbD_eq
  intro i hi
  simp [immField, hi, show 16 + i < 32 by omega]

theorem allField_not (w : Word) : allField (~~~w) = !allField w := by simp [allField]

theorem waitField_not (w : Word) : waitField (~~~w) = !waitField w := by simp [waitField]

/-- R61 "Equivalently": a word is a command of its operation's row exactly when it fits the row of that command in the
opcode table. -/
theorem decode_eq_ok_iff_fits {w : Word} {r : OpRow} (h : opRow w = some r) :
    decode w = .ok r.instr ↔ r.instr.tableRow.Fits w := by
  rw [(opRow_describes h).tableRow_eq, fits_iff, decode_eq_ok]
  have hOp : opField w &&& 255#8 = opField w := BitVec.and_allOnes
  have hRsv : rsvField w &&& 63#6 = rsvField w := BitVec.and_allOnes
  simp only [h, Option.some.injEq, BitVec.ofNat_eq_ofNat, exists_eq_left', and_true, true_and, opField_not,
    opField_commandWord, BitVec.not_zero, BitVec.reduceAllOnes, hOp, allField_not, allField_commandWord,
    Bool.and_eq_false_imp, Bool.not_eq_eq_eq_not, Bool.not_false, waitField_not, waitField_commandWord, rsvField_not,
    rsvField_commandWord, hRsv, immField_not, immField_commandWord]
  tauto

/-- Every command's row is one of the table. -/
theorem Instr.tableRow_mem (i : Instr) : i.tableRow ∈ opcodeTable := by
  cases i <;> simp [opcodeTable, Instr.tableRow]

/-- Every row of the table asks for its `OP`. -/
theorem opField_of_fits {r : TableRow} {w : Word} (hr : r ∈ opcodeTable) (h : r.Fits w) :
    opField w = opField r.value := by
  have hMasks : ∀ r ∈ opcodeTable, opField r.mask = BitVec.allOnes 8 := by decide
  obtain ⟨hOp, -⟩ := (fits_iff r w).1 h
  rwa [hMasks r hr, BitVec.and_allOnes] at hOp

/-- The rows of the table are told apart by their `OP`. -/
theorem tableRow_eq_of_opField_eq {r r' : TableRow} (hr : r ∈ opcodeTable) (hr' : r' ∈ opcodeTable)
    (h : opField r.value = opField r'.value) : r = r' := by
  have hDistinct : (opcodeTable.map fun r => opField r.value).Nodup := by decide
  exact List.inj_on_of_nodup_map hDistinct hr hr' h

/-- Settles O3: a row fits only words with its `OP`, and on those it is the row of their operation. -/
theorem decodeFollowsOpcodeTable : Obligations.DecodeFollowsOpcodeTable := by
  intro w r hr
  refine ⟨⟨?_, fun hFits => ?_⟩, fun r' hr' hFits hFits' => ?_⟩
  · rintro ⟨i, hDecode, rfl⟩
    obtain ⟨o, hRow, -, -, -, -, rfl⟩ := decode_eq_ok.1 hDecode
    exact (decode_eq_ok_iff_fits hRow).1 hDecode
  · have hAssigned : ∀ r ∈ opcodeTable, opField r.value ∈ assignedOps := by decide
    have hOp := opField_of_fits hr hFits
    obtain ⟨o, hRow⟩ := opRow_of_assigned (hOp ▸ hAssigned r hr)
    have hSame : o.instr.tableRow = r := by
      refine tableRow_eq_of_opField_eq o.instr.tableRow_mem hr ?_
      rw [(opRow_describes hRow).tableRow_eq, opField_commandWord, hOp]
    exact ⟨o.instr, (decode_eq_ok_iff_fits hRow).2 (hSame ▸ hFits), hSame⟩
  · exact tableRow_eq_of_opField_eq hr hr' ((opField_of_fits hr hFits).symm.trans (opField_of_fits hr' hFits'))

/-! ## The legal words (R61) -/

/-- R61 (e), for each number of bits that an operation can use. -/
theorem unusedImm_eq_zero_iff_cases (w : Word) :
    immField w &&& ~~~lowImm (immBits (opField w)) = 0 ↔
      (opField w = 0x31 ∨
        (opField w ∈ ([0x04, 0x10, 0x11, 0x24, 0x34] : List Byte) ∧ w.extractLsb' 24 8 = 0) ∨
        (opField w = 0x02 ∧ w.extractLsb' 17 15 = 0) ∨ w.extractLsb' 16 16 = 0) := by
  have hNoImm (h : w.extractLsb' 16 16 = 0) (n : Nat) : immField w &&& ~~~lowImm n = 0 := by
    rw [show immField w = 0 from h]
    exact BitVec.zero_and
  unfold immBits
  split_ifs with h31 hByte hBit
  · exact iff_of_true ((unusedImm_eq_zero_iff w 16).2 (BitVec.eq_nil _)) (.inl h31)
  · constructor
    · exact fun h => .inr (.inl ⟨hByte, (unusedImm_eq_zero_iff w 8).1 h⟩)
    · rintro (h | ⟨-, h⟩ | ⟨h, -⟩ | h)
      · exact absurd h h31
      · exact (unusedImm_eq_zero_iff w 8).2 h
      · rw [h] at hByte
        exact absurd hByte (by decide)
      · exact hNoImm h 8
  · constructor
    · exact fun h => .inr (.inr (.inl ⟨hBit, (unusedImm_eq_zero_iff w 1).1 h⟩))
    · rintro (h | ⟨h, -⟩ | ⟨-, h⟩ | h)
      · exact absurd h h31
      · exact absurd h hByte
      · exact (unusedImm_eq_zero_iff w 1).2 h
      · exact hNoImm h 1
  · constructor
    · exact fun h => .inr (.inr (.inr ((unusedImm_eq_zero_iff w 0).1 h)))
    · rintro (h | ⟨h, -⟩ | ⟨h, -⟩ | h)
      · exact absurd h h31
      · exact absurd h hByte
      · exact absurd h hBit
      · exact hNoImm h 0

/-- Settles O2: the conditions are those under which the row of the operation makes a command of the word. -/
theorem legalWordsAreTheFiveConditions : Obligations.LegalWordsAreTheFiveConditions := by
  intro w
  constructor
  · rintro ⟨i, hDecode⟩
    obtain ⟨r, hRow, hRsv, hAll, hWait, hImm, -⟩ := decode_eq_ok.1 hDecode
    have hr := opRow_describes hRow
    rw [hr.immUsed, unusedImm_eq_zero_iff_cases] at hImm
    exact ⟨hr.assigned, hRsv, fun h => hr.takesAll.1 (hAll h), fun h => hr.takesWait.1 (hWait h), hImm⟩
  · rintro ⟨hOp, hRsv, hAll, hWait, hImm⟩
    obtain ⟨r, hRow⟩ := opRow_of_assigned hOp
    have hr := opRow_describes hRow
    refine ⟨r.instr, decode_eq_ok.2 ⟨r, hRow, hRsv, fun h => hr.takesAll.2 (hAll h),
      fun h => hr.takesWait.2 (hWait h), ?_, rfl⟩⟩
    rw [hr.immUsed, unusedImm_eq_zero_iff_cases]
    exact hImm

/-- Settles O1: each of the words is the word of its command. -/
theorem exampleWordsDecode : Obligations.ExampleWordsDecode :=
  ⟨decodeOfEncode .reset rfl, decodeOfEncode (.wbit true) rfl, decodeOfEncode (.wbyte 0xCC) rfl,
    decodeOfEncode (.wrsp 0x4B46) rfl, decodeOfEncode (.pwrq true) rfl, decodeOfEncode (.convt true true) rfl,
    decodeOfEncode (.convt false true) rfl, decodeOfEncode (.setres 12) rfl, decodeOfEncode (.ldaddr 1) rfl⟩

end Sys2Proof

/-! SUPPORT. The pseudo-commands (spec/30_encoding.md R67): runs of the host moves that they stand for. -/

namespace Sys2Proof.Machine

open Host

/-! ## Runs -/

/-- A run whose first step answers a next state goes on from there, whatever the machine. -/
theorem run_succ_of_step {M : Core} {s t : M.State} (h : M.step s = .next t) (n : Nat) :
    M.run (n + 1) s = M.run n t := by
  rw [Core.run, h]

/-- A run of the controller goes on from the state its first step answers. -/
theorem run_of_step {s t : State} {n : Nat} {o : Outcome State Fault Refusal} (hStep : step s = .next t)
    (hRun : Core.run core n t = o) : Core.run core (n + 1) s = o :=
  (run_succ_of_step (M := core) hStep n).trans hRun

/-- The host writes the word of a command to `CMD`: the command is executed (R44, R66). -/
theorem step_of_cmd {s : State} {i : Instr} {rest : List HostMove} (hWf : i.wf = true) (hb : s.busy = false)
    (hh : s.host = cmd i :: rest) : step s = exec i { s with host := rest } :=
  stepRunsDecodedCommand s (encode i) i rest hb hh (decodeOfEncode i hWf)

/-! ## `CHECKSUM` -/

/-- `s` in the middle of `CHECKSUM`: these moves still to come, no error, and this value in `CRC`. -/
def duringChecksum (s : State) (rest : List HostMove) (c : Byte) : State :=
  { s with host := rest, stat.err := .none, crc := c }

/-- `CRCB` for each byte of a list takes `CRC` through the bytes (R111, R114). -/
theorem run_crcb_list (bytes : List Byte) (rest : List HostMove) (n : Nat) {s : State} (hb : s.busy = false)
    (c : Byte) :
    Core.run core (n + bytes.length) (duringChecksum s (bytes.map (fun b => cmd (.crcb b)) ++ rest) c) =
      Core.run core n (duringChecksum s rest (checksum bytes c)) := by
  induction bytes generalizing c with
  | nil => rfl
  | cons b bytes ih =>
    have hStep : step (duringChecksum s ((b :: bytes).map (fun b => cmd (.crcb b)) ++ rest) c) =
        .next (duringChecksum s (bytes.map (fun b => cmd (.crcb b)) ++ rest) (crc8 c b)) :=
      step_of_cmd (i := .crcb b) rfl hb rfl
    exact run_of_step hStep (ih (crc8 c b))

/-- Settles O59: `CRCI 0` gives the seed, the bytes follow one by one, and the read answers `CRC`. -/
theorem checksumPseudoCommand : Obligations.ChecksumPseudoCommand := by
  intro s bytes hb hh
  have hSeed : step s = .next (duringChecksum s (bytes.map (fun b => cmd (.crcb b)) ++ [.read 0x05]) 0) :=
    step_of_cmd (i := .crci 0) rfl hb hh
  have hRead : step (duringChecksum s [.read 0x05] (checksum bytes 0)) = .next { s with
      host := [], stat.err := .none, crc := checksum bytes 0
      replies := (checksum bytes 0).setWidth 32 :: s.replies } :=
    step_of_move (s := duringChecksum s [.read 0x05] _) hb rfl
  rw [show bytes.length + 2 = 1 + bytes.length + 1 by omega]
  exact run_of_step hSeed ((run_crcb_list bytes [.read 0x05] 1 hb 0).trans (run_of_step hRead rfl))

/-! ## `SETADDR` -/

/-- Both halves of `ADDR`, written with the bytes of an address. -/
theorem writeFour_addr_both (a b : RomAddr) :
    writeFour (writeFour b 0 (packWord a[0] a[1] a[2] a[3])) 4 (packWord a[4] a[5] a[6] a[7]) = a := by
  have hLow := packWord_getElem_low a (by decide)
  have hHigh := packWord_getElem a 4 (by decide)
  rw [writeFour_addr_high, writeFour_addr_low]
  ext i hi : 1
  match i, hi with
  | 0, _ => exact hLow 0 (by decide)
  | 1, _ => exact hLow 1 (by decide)
  | 2, _ => exact hLow 2 (by decide)
  | 3, _ => exact hLow 3 (by decide)
  | 4, _ => exact hHigh 0 (by decide)
  | 5, _ => exact hHigh 1 (by decide)
  | 6, _ => exact hHigh 2 (by decide)
  | 7, _ => exact hHigh 3 (by decide)

theorem regWrite_addr_low (v : Word) (s : State) :
    regWrite 0x06 v s = { s with addr := writeFour s.addr 0 v } := rfl

theorem regWrite_addr_high (v : Word) (s : State) :
    regWrite 0x07 v s = { s with addr := writeFour s.addr 4 v } := rfl

/-- Settles O60: the two writes give `ADDR` its two halves. -/
theorem setAddrPseudoCommand : Obligations.SetAddrPseudoCommand := by
  intro s a hb hh
  have hLow := step_of_write hb hh (by decide)
  rw [regWrite_addr_low] at hLow
  refine run_of_step hLow ?_
  have hHigh := step_of_write (s := { s with
    host := [.write 0x07 (packWord a[4] a[5] a[6] a[7])]
    addr := writeFour s.addr 0 (packWord a[0] a[1] a[2] a[3]) }) hb rfl (by decide)
  rw [regWrite_addr_high, writeFour_addr_both] at hHigh
  exact run_of_step hHigh rfl

end Sys2Proof.Machine

/-! SUPPORT. Bus transport (spec/40_transport.md): the words and the effects of its five commands, the pairing of
critical windows, and the ticks of slots and bytes. -/

namespace Sys2Proof

/-- The word of an operation that takes no modifier, as the command rules write it: `OP`, and the operand from bit 16
on. -/
theorem commandWord_setWidth {n : Nat} (op : Byte) (x : BitVec n) (hn : n ≤ 16) :
    commandWord op (x.setWidth 16) false false = op.setWidth 32 ||| x.setWidth 32 <<< 16 := by
  have hImm : (x.setWidth 16).setWidth 32 = x.setWidth 32 := by
    apply BitVec.eq_of_toNat_eq
    have hx : x.toNat < 2 ^ 16 := x.isLt.trans_le (Nat.pow_le_pow_right (by decide) hn)
    simp only [BitVec.toNat_setWidth]
    omega
  rw [commandWord_or, hImm]
  simp

/-- A command whose word is made so is decoded from it (R61). -/
theorem decode_setWidth {n : Nat} {op : Byte} {x : BitVec n} {i : Instr} (hn : n ≤ 16)
    (hEncode : encode i = commandWord op (x.setWidth 16) false false) (hWf : i.wf = true) :
    decode (op.setWidth 32 ||| x.setWidth 32 <<< 16) = .ok i := by
  rw [← commandWord_setWidth op x hn, ← hEncode]
  exact decodeOfEncode i hWf

end Sys2Proof

namespace Sys2Proof.Machine

open Host

/-! ## The five commands (R95 to R99) -/

/-- The presence bit is the inverse of the one sample of the reset slot (R91). -/
theorem busReset_eq (s : State) : busReset s = { s with
    stat.pres := !s.line.peek 0, line := s.line.play (wireReset s.cfg (s.line.peek 0)) } := by
  rw [busReset, Line.resetSlot_eq]

/-- Settles O23: a byte goes out as its eight slots, on the line alone. -/
theorem wbyteWritesEightSlots : Obligations.WbyteWritesEightSlots := by
  intro s v
  refine ⟨decode_setWidth (op := 0x04) (by decide) rfl rfl, ?_⟩
  change Outcome.next ((prologue s).writeBytes [v]) = _
  rw [State.writeBytes_eq]
  rfl

/-- Settles O24: `DATA` takes the byte that the next eight samples make. -/
theorem rbyteReadsEightSlots : Obligations.RbyteReadsEightSlots := by
  refine ⟨decodeOfEncode .rbyte rfl, fun s => ?_⟩
  change Outcome.next { prologue s with
    line := (s.line.readByte s.cfg).2, data := (s.line.readByte s.cfg).1 } = _
  rw [Line.readByte_eq]
  rfl

/-- Settles O20: `PRES` takes the presence bit of the reset slot, whichever it is. -/
theorem resetReportsPresence : Obligations.ResetReportsPresence := by
  refine ⟨decodeOfEncode .reset rfl, fun s => ?_⟩
  change Outcome.next (busReset (prologue s)) = _
  rw [busReset_eq]
  rfl

/-- Settles O21: a bit goes out as its slot, on the line alone. -/
theorem wbitWritesOneSlot : Obligations.WbitWritesOneSlot := by
  intro s b
  refine ⟨decode_setWidth (op := 0x02) (by decide) rfl rfl, ?_⟩
  change Outcome.next ((prologue s).writeSlot b) = _
  rw [State.writeSlot_eq]
  rfl

/-- Settles O22: `BIT` takes the sample of the read slot, uninverted. -/
theorem rbitReadsOneSlot : Obligations.RbitReadsOneSlot := by
  refine ⟨decodeOfEncode .rbit rfl, fun s => ?_⟩
  change Outcome.next { prologue s with
    line := (s.line.readSlot s.cfg).2, stat.bit := (s.line.readSlot s.cfg).1 } = _
  rw [Line.readSlot_eq]
  rfl

/-! ## Critical windows (R94) -/

/-- A power phase opens no critical window (R184). -/
theorem critPaired_wirePower (c : Ctrl) (d : BitVec 16) (wait : Bool) :
    critPaired false (wirePower c d wait) = true := by
  unfold wirePower
  split
  · split
    · rfl
    · rfl
  · split
    · rfl
    · rfl

theorem CommandEvents.critPaired {i : Instr} {l : Line} {c : Ctrl} {es : List Event} (h : CommandEvents i l c es) :
    critPaired false es = true := by
  cases h with
  | slots hes => exact List.append_nil es ▸ hes.paired []
  | powered _ hes d wait => rw [hes.paired, critPaired_wirePower]

/-- The events that a command adds to the trace are those it does at the pins. -/
theorem Advances.events_of_trace {i : Instr} {s t : State} {es : List Event} (h : Advances i s t)
    (hTrace : t.line.trace = es.reverse ++ s.line.trace) : CommandEvents i s.line s.ctrl es := by
  obtain ⟨fs, hfs, hl⟩ := h.events
  rw [hl, Line.play_trace, List.append_left_inj, List.reverse_inj] at hTrace
  exact hTrace ▸ hfs

/-- Settles O56: a command is made of slots, each with its window closed, and of a power phase that opens none. -/
theorem criticalWindowsPair : Obligations.CriticalWindowsPair :=
  fun _ _ _ _ h hTrace => (h.events_of_trace hTrace).critPaired

/-! ## Ticks (R101) -/

@[simp] theorem ticks_append (es fs : List Event) : ticks (es ++ fs) = ticks es + ticks fs := by
  simp [ticks]

theorem ticks_wireWrite_spec (b : Bool) : ticks (wireWrite .spec b) = if b then 58 else 68 := by
  cases b <;> rfl

theorem ticks_wireReset_spec (v : Bool) : ticks (wireReset .spec v) = 960 := by
  simp [ticks, wireReset, Config.spec]

@[simp] theorem ticks_wireRead_spec (v : Bool) : ticks (wireRead .spec v) = 51 := rfl

/-- Write slots take 58 ticks each, and 10 more for each 0 written. -/
theorem ticks_writes_spec (f : Nat → Bool) (ks : List Nat) :
    ticks (ks.flatMap fun i => wireWrite .spec (f i)) = 58 * ks.length + 10 * (ks.filter fun i => !f i).length := by
  induction ks with
  | nil => rfl
  | cons k ks ih =>
    rw [List.flatMap_cons, ticks_append, ih, ticks_wireWrite_spec, List.length_cons]
    cases hk : f k with
    | true =>
      rw [List.filter_cons_of_neg (by simp [hk]), if_pos rfl]
      omega
    | false =>
      rw [List.filter_cons_of_pos (by simp [hk]), if_neg Bool.false_ne_true, List.length_cons]
      omega

theorem ticks_reads_spec (f : Nat → Bool) (ks : List Nat) :
    ticks (ks.flatMap fun i => wireRead .spec (f i)) = 51 * ks.length := by
  induction ks with
  | nil => rfl
  | cons k ks ih =>
    rw [List.flatMap_cons, ticks_append, ih, ticks_wireRead_spec, List.length_cons]
    omega

theorem ticks_wireByteOut_spec (v : Byte) : ticks (wireBytesOut .spec [v]) = 464 + 10 * zeroBits v := by
  rw [wireBytesOut, List.flatMap_singleton, ticks_writes_spec, List.length_range]
  rfl

theorem ticks_wireByteIn_spec (v : Byte) : ticks (wireBytesIn .spec [v]) = 408 := by
  rw [wireBytesIn, List.flatMap_singleton, ticks_reads_spec, List.length_range]

/-- Settles O57: the slots are read off the figures of R6, and a byte is eight of them. -/
theorem slotLengths : Obligations.SlotLengths := by
  intro v b
  exact ⟨ticks_wireReset_spec b, ticks_wireWrite_spec true, ticks_wireWrite_spec false, ticks_wireRead_spec b,
    ticks_wireByteOut_spec v, ticks_wireByteIn_spec v, samplesOf_wireReset _ b, samplesOf_wireWrite _ b, samplesOf_wireRead _ b,
    samplesOf_wireBytesOut _ [v], samplesOf_wireBytesIn_length _ [v]⟩

end Sys2Proof.Machine

/-! SUPPORT. The CRC-8 engine (spec/41_crc.md): the laws of `crc8` and of `checksum`, and the commands that use them. -/

namespace Sys2Proof.Machine

open Host

/-! ## One round (R110) -/

/-- What a round feeds back when the data bit differs from bit 0 of the accumulator, and when it does not. -/
def feedback (differ : Bool) : Byte := if differ then 0x8C else 0

theorem feedback_xor (d d' : Bool) : feedback (d ^^ d') = feedback d ^^^ feedback d' := by
  cases d <;> cases d' <;> rfl

theorem crcStep_eq (c : Byte) (d : Bool) : crcStep c d = c >>> 1 ^^^ feedback (d ^^ c.getLsbD 0) := by
  change (if d ^^ c.getLsbD 0 then _ else _) = _
  cases d ^^ c.getLsbD 0 with
  | false => exact BitVec.xor_zero.symm
  | true => rfl

/-- A round is linear in the accumulator and the data bit together. -/
theorem crcStep_xor (c c' : Byte) (d d' : Bool) :
    crcStep (c ^^^ c') (d ^^ d') = crcStep c d ^^^ crcStep c' d' := by
  have hBit : (d ^^ d' ^^ (c ^^^ c').getLsbD 0) = ((d ^^ c.getLsbD 0) ^^ (d' ^^ c'.getLsbD 0)) := by
    simp only [BitVec.getLsbD_xor, Bool.xor_assoc, Bool.xor_left_comm]
  rw [crcStep_eq, crcStep_eq, crcStep_eq, hBit, feedback_xor, BitVec.ushiftRight_xor_distrib]
  ac_rfl

/-- Bit 7 of the result tells whether the round fed back: the shift leaves it 0. -/
theorem crcStep_getLsbD_seven (c : Byte) (d : Bool) : (crcStep c d).getLsbD 7 = (d ^^ c.getLsbD 0) := by
  rw [crcStep_eq, BitVec.getLsbD_xor, BitVec.getLsbD_ushiftRight, BitVec.getLsbD_of_ge c 8 le_rfl, Bool.false_xor]
  cases d ^^ c.getLsbD 0 <;> rfl

/-- A round can be undone: its bit 7 gives bit 0 back, and with the feedback known the other bits are shifted back. -/
theorem crcStep_injective (d : Bool) : Function.Injective fun c => crcStep c d := by
  intro c c' h
  have hDiffer : (d ^^ c.getLsbD 0) = (d ^^ c'.getLsbD 0) := by
    rw [← crcStep_getLsbD_seven, ← crcStep_getLsbD_seven, show crcStep c d = crcStep c' d from h]
  have hShift : c >>> 1 = c' >>> 1 := by
    simpa only [crcStep_eq, hDiffer, BitVec.xor_left_inj] using h
  apply BitVec.eq_of_getLsbD_eq
  intro i _
  cases i with
  | zero => exact Bool.xor_right_inj.1 hDiffer
  | succ i => simpa [Nat.add_comm] using congrArg (·.getLsbD i) hShift

/-- A round that meets bit 0 of the accumulator as its data bit only shifts. -/
theorem crcStep_ushiftRight_self (c : Byte) (k : Nat) : crcStep (c >>> k) (c.getLsbD k) = c >>> (k + 1) := by
  have hBit : (c >>> k).getLsbD 0 = c.getLsbD k := BitVec.getLsbD_ushiftRight c k 0
  rw [crcStep_eq, hBit, Bool.xor_self, BitVec.shiftRight_add]
  exact BitVec.xor_zero

/-! ## `crc8` (R110, R112) -/

/-- Rounds on any data bits of the operand, for the accumulator and the operand together. -/
theorem crcRounds_xor (ks : List Nat) (c c' b b' : Byte) :
    ks.foldl (fun c k => crcStep c ((b ^^^ b').getLsbD k)) (c ^^^ c') =
      ks.foldl (fun c k => crcStep c (b.getLsbD k)) c ^^^ ks.foldl (fun c k => crcStep c (b'.getLsbD k)) c' := by
  induction ks generalizing c c' with
  | nil => rfl
  | cons k ks ih =>
    rw [List.foldl_cons, List.foldl_cons, List.foldl_cons, BitVec.getLsbD_xor, crcStep_xor, ih]

theorem crc8_xor (c c' b b' : Byte) : crc8 (c ^^^ c') (b ^^^ b') = crc8 c b ^^^ crc8 c' b' :=
  crcRounds_xor _ c c' b b'

theorem crcRounds_self (c : Byte) (n : Nat) :
    (List.range n).foldl (fun a k => crcStep a (c.getLsbD k)) c = c >>> n := by
  induction n with
  | zero => exact (BitVec.ushiftRight_zero c).symm
  | succ n ih =>
    rw [List.range_succ, List.foldl_append, ih]
    exact crcStep_ushiftRight_self c n

/-- R112 (b). -/
@[simp] theorem crc8_self (c : Byte) : crc8 c c = 0 :=
  (crcRounds_self c 8).trans (BitVec.ushiftRight_eq_zero le_rfl)

/-- R112 (a): by linearity, since what is taken off both arguments has no checksum. -/
theorem crc8_eq_xor (c b : Byte) : crc8 c b = crc8 0 (c ^^^ b) :=
  calc crc8 c b = crc8 (0#8 ^^^ c) (c ^^^ b ^^^ c) := by
        rw [BitVec.zero_xor, BitVec.xor_comm c b, BitVec.xor_assoc, BitVec.xor_self, BitVec.xor_zero]
    _ = crc8 0 (c ^^^ b) ^^^ crc8 c c := crc8_xor 0 c (c ^^^ b) c
    _ = crc8 0 (c ^^^ b) := (congrArg _ (crc8_self c)).trans BitVec.xor_zero

theorem crc8_comm (c b : Byte) : crc8 c b = crc8 b c := by
  rw [crc8_eq_xor c, crc8_eq_xor b, BitVec.xor_comm]

/-- A fold whose every step is injective in the accumulator is injective in its start. -/
theorem foldl_injective {α β : Type} {f : β → α → β} (hf : ∀ a, Function.Injective fun b => f b a) (l : List α) :
    Function.Injective fun b => l.foldl f b := by
  induction l with
  | nil => exact Function.injective_id
  | cons a l ih => exact ih.comp (hf a)

theorem crc8_injective_left (b : Byte) : Function.Injective fun c => crc8 c b :=
  foldl_injective (fun k => crcStep_injective (b.getLsbD k)) _

theorem crc8_injective_right (c : Byte) : Function.Injective fun b => crc8 c b := by
  simpa only [crc8_comm c] using crc8_injective_left c

/-! ## `checksum` (R111, R112) -/

@[simp] theorem checksum_append (bytes bytes' : List Byte) (c : Byte) :
    checksum (bytes ++ bytes') c = checksum bytes' (checksum bytes c) :=
  List.foldl_append

theorem checksum_injective_seed (bytes : List Byte) : Function.Injective fun c => checksum bytes c :=
  foldl_injective crc8_injective_left bytes

/-- R112 (d): the byte that differs gives two values, and the bytes after it keep them apart. -/
theorem checksum_ne_of_one_byte (before after : List Byte) {x y : Byte} (h : x ≠ y) (c : Byte) :
    checksum (before ++ x :: after) c ≠ checksum (before ++ y :: after) c := by
  rw [checksum_append, checksum_append]
  exact (checksum_injective_seed after).ne ((crc8_injective_right _).ne h)

theorem checksum_replicate_zero (n : Nat) : checksum (List.replicate n 0) 0 = 0 := by
  induction n with
  | zero => rfl
  | succ n ih => exact ih

/-- Settles O37: `crc8` is linear and each of its rounds can be undone, which gives all but the table. -/
theorem crcEightLaws : Obligations.CrcEightLaws :=
  ⟨crc8_eq_xor, by decide, crc8_self, fun bytes => (checksum_append bytes _ 0).trans (crc8_self _),
    fun c => (crc8_injective_right c).bijective_of_finite, fun b => (crc8_injective_left b).bijective_of_finite,
    fun before after _ _ h => checksum_ne_of_one_byte before after h 0, crc8_self 0, checksum_replicate_zero⟩

/-- Settles O38: the eight values, computed. -/
theorem crcWorkedExample : Obligations.CrcWorkedExample := by
  unfold Obligations.CrcWorkedExample
  decide

/-! ## The commands (R113 to R117) -/

/-- Settles O25: `CRC` takes the value that each rule names. -/
theorem crcCommandsUpdateAccumulator : Obligations.CrcCommandsUpdateAccumulator := fun _ _ =>
  ⟨decode_setWidth (op := 0x10) (by decide) rfl rfl, decode_setWidth (op := 0x11) (by decide) rfl rfl,
    decodeOfEncode .crcd rfl, rfl, rfl, rfl⟩

/-- The first `k` bytes of a buffer, one by one. -/
theorem toList_take_eq_ofFn {n : Nat} (v : Vector Byte n) (k : Nat) (h : k ≤ n) :
    v.toList.take k = List.ofFn fun i : Fin k => v[i] :=
  List.ext_getElem (by simp [h]) (by simp)

/-- The check of an address is over its bytes 0 to 6 (R116). -/
theorem romChecksum_eq (a : RomAddr) : romChecksum a = checksum [a[0], a[1], a[2], a[3], a[4], a[5], a[6]] 0 :=
  congrArg (checksum · 0) (toList_take_eq_ofFn a 7 (by decide))

/-- The check of a scratch-pad is over its bytes 0 to 7 (R117). -/
theorem ramChecksum_eq (m : ScratchPad) :
    ramChecksum m = checksum [m[0], m[1], m[2], m[3], m[4], m[5], m[6], m[7]] 0 :=
  congrArg (checksum · 0) (toList_take_eq_ofFn m 8 (by decide))

/-- Settles O26: the check of `ADDR` or of `RAM` goes into `CRC` and is compared with the last byte. -/
theorem crcChecksCompareLastByte : Obligations.CrcChecksCompareLastByte := by
  refine ⟨decodeOfEncode .crcrom rfl, decodeOfEncode .crcram rfl, fun s => ⟨?_, ?_⟩⟩
  · rw [← romChecksum_eq]
    rfl
  · rw [← ramChecksum_eq]
    rfl

end Sys2Proof.Machine

/-! SUPPORT. ROM selection and registry access (spec/42_rom_select.md): the words and the effects of `MATCH`, `SKIP`,
`RDROM` and `LDADDR`. -/

namespace Sys2Proof.Machine

/-! ## How a command ends -/

theorem command_of_go {body : State → Flow} {s t : State} (h : body (prologue s) = .go t) :
    command body s = .next t := by
  rw [command, h, Flow.state_go]

theorem command_of_aborted {body : State → Flow} {s t : State} (h : body (prologue s) = .aborted t) :
    command body s = .next t := by
  rw [command, h, Flow.state_aborted]

/-! ## Selection (R126, R127) -/

/-- Settles O27: each command is its frame after the prologue (R219); without presence the frame aborts after its
reset slot (R224). -/
theorem matchAndSkipSelect : Obligations.MatchAndSkipSelect := by
  refine ⟨decodeOfEncode .matchrom rfl, decodeOfEncode .skip rfl, fun s => ⟨fun hPresent => ?_, fun hAbsent => ?_⟩⟩
  · exact ⟨command_of_go (matchRom_present hPresent), command_of_go (skipRom_present hPresent)⟩
  · exact ⟨command_of_aborted (matchRom_absent hAbsent), command_of_aborted (skipRom_absent hAbsent)⟩

/-! ## Reading after a frame (R129) -/

/-- Bytes read after the events `es` are made of the samples that `es` leaves. -/
theorem Line.readBytes_play (c : Config) (n : Nat) (l : Line) (es : List Event) :
    (l.play es).readBytes c n = (l.peekBytes (samplesOf es).length n,
      l.play (es ++ wireBytesIn c (l.peekBytes (samplesOf es).length n).toList)) := by
  rw [Line.readBytes_eq, Line.peekBytes_play, Nat.zero_add, Line.play_append]

/-- Settles O28: the reset slot takes the first sample and the command byte none, so the address is made of the 64
samples after that. -/
theorem rdromReadsAddress : Obligations.RdromReadsAddress := by
  refine ⟨decodeOfEncode .rdrom rfl, fun s => ?_⟩
  dsimp only [exec, execRdrom]
  refine ⟨fun hPresent => command_of_go ?_, fun hAbsent => command_of_aborted ?_⟩
  · have hSamples : (samplesOf (wireReset s.cfg false ++ wireBytesOut s.cfg [wireReadRom])).length = 1 := by simp
    rw [resetOrAbort_present (s := prologue s) hPresent, Flow.andThen_go, State.writeBytes_eq]
    dsimp only [prologue_cfg, prologue_line]
    rw [← Line.play_append, Line.readBytes_play, hSamples]
    rfl
  · rw [resetOrAbort_absent (s := prologue s) hAbsent, Flow.andThen_aborted]
    rfl

/-! ## The registry (R133) -/

/-- The word of `LDADDR i` carries `i` in bits 23:16. -/
theorem decode_ldaddr {index : Nat} (h : index ≤ 255) :
    decode (0x00000024#32 ||| BitVec.ofNat 32 index <<< 16) = .ok (.ldaddr index) := by
  have hIndex : (BitVec.ofNat 8 index).setWidth 32 = BitVec.ofNat 32 index :=
    BitVec.setWidth_ofNat_of_le_of_lt (by decide) (Nat.lt_succ_of_le h)
  rw [← hIndex]
  exact decode_setWidth (op := 0x24) (by decide) rfl (decide_eq_true h)

/-- Settles O29: an index below `COUNT` has an entry, one at or above it has none and aborts. -/
theorem ldaddrCopiesRegistryEntry : Obligations.LdaddrCopiesRegistryEntry := by
  intro s index
  dsimp only [exec, execLdaddr]
  refine ⟨decode_ldaddr, fun hIn => command_of_go ?_, fun hOut => command_of_aborted ?_, rfl⟩
  · rw [prologue_reg, List.getElem?_eq_getElem hIn]
    rfl
  · rw [prologue_reg, List.getElem?_eq_none hOut]
    rfl

end Sys2Proof.Machine

/-! SUPPORT. The bits of an address (spec/43_search.md R141): what is read after a bit is written, and that the 64 bits
determine the address; the branch at a discrepancy (R146). -/

namespace Sys2Proof.Machine

/-! ## Bits of an address (R141) -/

theorem setBit_getLsbD (x : Byte) {i : Nat} (hi : i < 8) (b : Bool) (j : Nat) :
    (setBit x i b).getLsbD j = if j = i then b else x.getLsbD j := by
  have hMask : (1#8 <<< i).getLsbD j = decide (j = i) := by
    rw [← BitVec.twoPow_eq, BitVec.getLsbD_twoPow]
    simp only [hi, decide_true, Bool.true_and, eq_comm]
  unfold setBit
  cases b with
  | true =>
    rw [if_pos rfl, BitVec.getLsbD_or, hMask]
    by_cases hj : j = i <;> simp [hj]
  | false =>
    rw [if_neg Bool.false_ne_true, BitVec.getLsbD_and, BitVec.getLsbD_not, hMask]
    by_cases hj : j = i
    · simp [hj]
    · rcases lt_or_ge j 8 with h8 | h8
      · simp [hj, h8]
      · simp [hj, BitVec.getLsbD_of_ge x j h8]

/-- What a position holds after a write to a position of the address. -/
theorem romBit_setRomBit (a : RomAddr) {pos : Nat} (h1 : 1 ≤ pos) (h64 : pos ≤ 64) (b : Bool) {q : Nat} (hq : 1 ≤ q) :
    romBit (setRomBit a pos b) q = if q = pos then b else romBit a q := by
  have hByte : (pos - 1) / 8 < 8 := by omega
  have hBit : (pos - 1) % 8 < 8 := by omega
  unfold romBit setRomBit
  rw [Vector.getElem?_setIfInBounds, if_pos hByte]
  by_cases hSame : (pos - 1) / 8 = (q - 1) / 8
  · rw [if_pos hSame, Option.getD_some, setBit_getLsbD _ hBit, hSame]
    have : (q - 1) % 8 = (pos - 1) % 8 ↔ q = pos := by omega
    simp only [this]
  · rw [if_neg hSame, if_neg (by rintro rfl; exact hSame rfl)]

theorem romBit_setRomBit_same (a : RomAddr) {pos : Nat} (h1 : 1 ≤ pos) (h64 : pos ≤ 64) (b : Bool) :
    romBit (setRomBit a pos b) pos = b := by
  rw [romBit_setRomBit a h1 h64 b h1, if_pos rfl]

/-- The positions of an address (R141). -/
theorem mem_positions {k : Nat} : k ∈ List.range' 1 64 ↔ 1 ≤ k ∧ k ≤ 64 := by
  rw [List.mem_range'_1]
  omega

/-- The bits at positions 1 to 64 are the whole address. -/
theorem romAddr_ext {a b : RomAddr} (h : ∀ q, 1 ≤ q → q ≤ 64 → romBit a q = romBit b q) : a = b := by
  apply Vector.ext
  intro k hk
  apply BitVec.eq_of_getLsbD_eq
  intro i hi
  have hPos := h (8 * k + i + 1) (by omega) (by omega)
  have hByte : (8 * k + i) / 8 = k := by omega
  have hBit : (8 * k + i) % 8 = i := by omega
  simpa only [romBit, Nat.add_sub_cancel, hByte, hBit, Vector.getElem?_eq_getElem hk, Option.getD_some] using hPos

/-- Writing the bit that a position holds changes nothing. -/
theorem setRomBit_romBit_self (a : RomAddr) {pos : Nat} (h1 : 1 ≤ pos) (h64 : pos ≤ 64) :
    setRomBit a pos (romBit a pos) = a := by
  refine romAddr_ext fun q hq _ => ?_
  rw [romBit_setRomBit a h1 h64 _ hq]
  split
  · next hSame => rw [hSame]
  · rfl

/-! ## The branch at a discrepancy (R146) -/

theorem decideBranch_at {pos : Nat} {s : State} (h : pos = s.lastd.toNat) :
    decideBranch pos s = { s with srom := setRomBit s.srom pos true } := if_pos h

theorem decideBranch_beyond {pos : Nat} {s : State} (h : s.lastd.toNat < pos) :
    decideBranch pos s = { s with srom := setRomBit s.srom pos false, mark := BitVec.ofNat 7 pos } := by
  rw [decideBranch, if_neg (by omega), if_pos h]

theorem decideBranch_retrace {pos : Nat} {s : State} (h : pos < s.lastd.toNat) :
    decideBranch pos s = { s with mark := if romBit s.srom pos then s.mark else BitVec.ofNat 7 pos } := by
  rw [decideBranch, if_neg (by omega), if_neg (by omega)]
  cases romBit s.srom pos <;> rfl

/-- The branch writes `SROM` and the mark only, and does not depend on the line. -/
theorem decideBranch_onLine (pos : Nat) (s : State) (l : Line) :
    decideBranch pos { s with line := l } =
      { s with srom := (decideBranch pos s).srom, mark := (decideBranch pos s).mark, line := l } := by
  rcases lt_trichotomy pos s.lastd.toNat with h | h | h
  · rw [decideBranch_retrace h, decideBranch_retrace (s := { s with line := l }) h]
  · rw [decideBranch_at h, decideBranch_at (s := { s with line := l }) h]
  · rw [decideBranch_beyond h, decideBranch_beyond (s := { s with line := l }) h]

/-- Settles O45: each branch of the definition, and the positions other than the one that it writes. -/
theorem discrepancyBranchRule : Obligations.DiscrepancyBranchRule := by
  intro s pos h1 h64
  have hMark : (BitVec.ofNat 7 pos).toNat = pos := by
    rw [BitVec.toNat_ofNat, Nat.mod_eq_of_lt (by omega)]
  have hOther (b : Bool) (q : Nat) (hq : 1 ≤ q) (hne : q ≠ pos) :
      romBit (setRomBit s.srom pos b) q = romBit s.srom q := by
    rw [romBit_setRomBit s.srom h1 h64 b hq, if_neg hne]
  rcases lt_trichotomy pos s.lastd.toNat with h | h | h
  · rw [decideBranch_retrace h]
    refine ⟨by omega, by omega, fun _ => ⟨rfl, fun hb => ?_, fun hb => ?_⟩, fun _ _ _ _ => rfl, rfl⟩
    · simp only [hb, if_true]
    · simpa only [hb, if_neg Bool.false_ne_true] using hMark
  · rw [decideBranch_at h]
    exact ⟨fun _ => ⟨romBit_setRomBit_same _ h1 h64 _, rfl⟩, by omega, by omega, fun q hq _ => hOther true q hq, rfl⟩
  · rw [decideBranch_beyond h]
    exact ⟨by omega, fun _ => ⟨romBit_setRomBit_same _ h1 h64 _, hMark⟩, by omega, fun q hq _ => hOther false q hq, rfl⟩

end Sys2Proof.Machine

/-! SUPPORT. How a pass can end (spec/43_search.md R152, R155, R159): at its first descent, and at any. -/

namespace Sys2Proof.Machine

/-! ## A pass that its first descent ends -/

theorem exec_findall (s : State) : exec .findall s = .next (continuePass (startPass (prologue s))) := rfl

theorem passTurn_of_aborted {s t : State} (h : descent s = .aborted t) : passTurn s = { t with busy := false } := by
  rw [passTurn, h]

theorem passTurn_of_exhausted {s t : State} (h : descent s = .go t) (hLastd : t.lastd = 0) :
    passTurn s = { t with stat.srchDone := true, busy := false } := by
  rw [passTurn, h]
  exact if_pos hLastd

theorem passTurn_of_more {s t : State} (h : descent s = .go t) (hLastd : t.lastd ≠ 0) :
    passTurn s = { t with busy := true } := by
  rw [passTurn, h]
  exact if_neg hLastd

theorem runPass_succ_of_ended {s : State} (h : (passTurn s).busy = false) (n : Nat) :
    runPass (n + 1) s = passTurn s := by
  rw [runPass, h, if_neg Bool.false_ne_true]

theorem runPass_succ_of_busy {s : State} (h : (passTurn s).busy = true) (n : Nat) :
    runPass (n + 1) s = runPass n (passTurn s) := by
  rw [runPass, h, if_pos rfl]

/-- A descent that aborts ends its pass (R148, R155). -/
theorem continuePass_of_aborted {s t : State} (h : descent s = .aborted t) :
    continuePass s = { t with busy := false } := by
  have hTurn := passTurn_of_aborted h
  rw [continuePass, runPass_succ_of_ended (by rw [hTurn]), hTurn]

theorem descent_absent {s : State} (h : s.line.peek 0 = true) : descent s = .aborted (afterNoPresence s) := by
  rw [descent, descentHead_absent h, Flow.andThen_aborted]

/-- Settles O41: the head of the first descent aborts. -/
theorem findallOnEmptyBus : Obligations.FindallOnEmptyBus := by
  intro s h
  rw [exec_findall, continuePass_of_aborted (descent_absent (s := startPass (prologue s)) h)]
  rfl

/-- Presence, and the pair (1, 1) at position 1. -/
theorem descent_unanswered {s : State} (h0 : s.line.peek 0 = false) (h1 : s.line.peek 1 = true)
    (h2 : s.line.peek 2 = true) :
    descent s = .aborted (raise .coll { s with
      stat.pres := true, mark := 0
      line := s.line.play (wireReset s.cfg false ++ wireBytesOut s.cfg [0xF0] ++ wireRead s.cfg true ++
        wireRead s.cfg true) }) := by
  have hSamples : samplesOf (wireReset s.cfg false ++ wireBytesOut s.cfg [0xF0]) = [false] := by simp
  rw [descent, descentHead_present h0, Flow.andThen_go, List.range'_succ, Flow.forEach,
    triplet_collision (by rw [Line.peek_play, hSamples]; exact h1) (by rw [Line.peek_play, hSamples]; exact h2)]
  rw [List.append_assoc _ (wireRead _ _), Line.play_append _ (_ ++ _) (_ ++ _)]
  rfl

/-- Settles O42: the first triplet aborts before its write slot. -/
theorem findallWithoutAnswerReportsCollision : Obligations.FindallWithoutAnswerReportsCollision := by
  intro s h0 h1 h2
  rw [exec_findall, continuePass_of_aborted (descent_unanswered (s := startPass (prologue s)) h0 h1 h2)]
  exact ⟨rfl, rfl⟩

/-! ## What a pass adds to the registry (R151) -/

/-- The registry `r'` is `r` with valid new addresses after it, none twice. -/
def RegistryGrows (r r' : List RomAddr) : Prop :=
  ∃ new, r' = r ++ new ∧ new.Nodup ∧ ∀ a ∈ new, ValidRom a ∧ a ∉ r

theorem RegistryGrows.refl (r : List RomAddr) : RegistryGrows r r :=
  ⟨[], (List.append_nil r).symm, List.nodup_nil, nofun⟩

theorem RegistryGrows.concat {r r' : List RomAddr} {x : RomAddr} (h : RegistryGrows r r') (hv : ValidRom x)
    (hx : x ∉ r') : RegistryGrows r (r' ++ [x]) := by
  obtain ⟨new, rfl, hNodup, hNew⟩ := h
  obtain ⟨hr, hn⟩ := not_or.1 (List.mem_append.not.1 hx)
  refine ⟨new ++ [x], List.append_assoc _ _ _, List.nodup_append_comm.1 (List.nodup_cons.2 ⟨hn, hNodup⟩), ?_⟩
  intro a ha
  rcases List.mem_append.1 ha with ha | ha
  · exact hNew a ha
  · exact List.mem_singleton.1 ha ▸ ⟨hv, hr⟩

theorem descent_registryGrows {r : List RomAddr} {s : State} (h : RegistryGrows r s.reg) :
    RegistryGrows r (descent s).state.reg := by
  obtain ⟨x, m, es, -, -, hEnd⟩ := descent_spec s
  generalize descent s = f at hEnd
  cases hEnd with
  | found hv hx => exact h.concat hv hx
  | _ => exact h

theorem passTurn_reg (s : State) : (passTurn s).reg = (descent s).state.reg := by
  obtain ⟨t, hd, hp⟩ | ⟨t, hd, -, hp⟩ | ⟨t, hd, -, hp⟩ := passTurn_cases s <;> rw [hd, hp] <;> rfl

theorem continuePass_registryGrows (s : State) : RegistryGrows s.reg (continuePass s).reg :=
  runPass_keeps (P := fun t => RegistryGrows s.reg t.reg)
    (fun t h => by rw [passTurn_reg]; exact descent_registryGrows h) _ (.refl _)

/-! ## How a pass stands after a turn (R155) -/

/-- How a descent that aborted left the state, for each error. -/
structure AbortedDescent (t : State) : Prop where
  error : t.stat.err ≠ .none
  noPres : t.stat.err = .noPres → t.stat.pres = false ∧ t.mark = t.lastd
  coll : t.stat.err = .coll → t.stat.pres = true
  crc : t.stat.err = .crc → t.stat.pres = true ∧ t.crc = romChecksum t.srom ∧ ¬ ValidRom t.srom
  regOvf : t.stat.err = .regOvf → t.stat.pres = true ∧ t.count = t.cfg.nDev ∧ t.srom ∉ t.reg ∧ ValidRom t.srom

/-- How a complete descent left the state, when it began without an error. -/
structure CompleteDescent (t : State) : Prop where
  noError : t.stat.err = .none
  pres : t.stat.pres = true
  registered : t.srom ∈ t.reg
  valid : ValidRom t.srom
  crc : t.crc = t.srom[7]

/-- How a pass stands after one turn or more. -/
inductive PassEnding (t : State) : Prop where
  | aborted (hBusy : t.busy = false) (hDone : t.stat.srchDone = false) (h : AbortedDescent t)
  | exhausted (hBusy : t.busy = false) (hDone : t.stat.srchDone = true) (h : CompleteDescent t)
      (hLastd : t.lastd = 0) (hMark : t.mark = 0)
  | underWay (hBusy : t.busy = true) (hDone : t.stat.srchDone = false) (h : CompleteDescent t)
      (hLastd : t.lastd ≠ 0) (hMark : t.mark = t.lastd)

theorem descent_aborted {s t : State} (h : descent s = .aborted t) (hMark : s.mark = s.lastd) : AbortedDescent t := by
  obtain ⟨x, m, es, -, -, hEnd⟩ := descent_spec s
  rw [h] at hEnd
  cases hEnd with
  | noPresence => exact ⟨nofun, fun _ => ⟨rfl, hMark⟩, nofun, nofun, nofun⟩
  | collision => exact ⟨nofun, nofun, fun _ => rfl, nofun, nofun⟩
  | checksum hv => exact ⟨nofun, nofun, nofun, fun _ => ⟨rfl, rfl, hv⟩, nofun⟩
  | overflow hv hx hn => exact ⟨nofun, nofun, nofun, nofun, fun _ => ⟨rfl, hn, hx, hv⟩⟩

theorem descent_complete {s t : State} (h : descent s = .go t) (hErr : s.stat.err = .none) : CompleteDescent t := by
  obtain ⟨x, m, es, -, -, hEnd⟩ := descent_spec s
  rw [h] at hEnd
  cases hEnd with
  | known hv hx => exact ⟨hErr, rfl, hx, hv, hv⟩
  | found hv => exact ⟨hErr, rfl, List.mem_append_right _ (List.mem_singleton_self _), hv, hv⟩

/-- An aborted descent leaves `LASTD` and the registry as they were, and `SRCH_DONE`. -/
theorem descent_aborted_keeps {s t : State} (h : descent s = .aborted t) :
    t.lastd = s.lastd ∧ t.reg = s.reg ∧ t.stat.srchDone = s.stat.srchDone := by
  obtain ⟨x, m, es, -, -, hEnd⟩ := descent_spec s
  rw [h] at hEnd
  cases hEnd <;> exact ⟨rfl, rfl, rfl⟩

/-- A turn of a pass that stands without an error, not at its end, and with `LASTD` the mark. -/
theorem passTurn_ending {s : State} (hErr : s.stat.err = .none) (hDone : s.stat.srchDone = false)
    (hMark : s.mark = s.lastd) : PassEnding (passTurn s) := by
  obtain ⟨t, hd, hp⟩ | ⟨t, hd, hLast, hp⟩ | ⟨t, hd, hMore, hp⟩ := passTurn_cases s
  all_goals rw [hp]
  · obtain ⟨-, -, htd⟩ := descent_aborted_keeps hd
    exact .aborted rfl (htd.trans hDone) { descent_aborted hd hMark with }
  · obtain ⟨-, -, htm⟩ := descent_go_fields hd
    exact .exhausted rfl rfl { descent_complete hd hErr with } hLast (htm.trans hLast)
  · obtain ⟨-, htd, htm⟩ := descent_go_fields hd
    exact .underWay rfl (htd.trans hDone) { descent_complete hd hErr with } hMore htm

theorem continuePass_ending {s : State} (hErr : s.stat.err = .none) (hDone : s.stat.srchDone = false)
    (hMark : s.mark = s.lastd) : PassEnding (continuePass s) := by
  refine runPass_last s.cfg.nDev (passTurn_ending hErr hDone hMark) fun t hb ht => ?_
  cases ht with
  | underWay _ htd hComplete _ htm => exact passTurn_ending hComplete.noError htd htm
  | aborted htb | exhausted htb => exact nomatch htb.symm.trans hb

/-! Each clause of `FindallEndings`, from the three ways in which a pass can stand -/

theorem PassEnding.busy_iff {t : State} (h : PassEnding t) :
    t.busy = true ↔ t.stat.srchDone = false ∧ t.stat.err = .none := by
  cases h with
  | aborted hb _ h => simp [hb, h.error]
  | exhausted hb hd => simp [hb, hd]
  | underWay hb hd h => simp [hb, hd, h.noError]

theorem PassEnding.moreToFind {t : State} (h : PassEnding t) (hBusy : t.busy = true) :
    t.lastd ≠ 0 ∧ t.mark = t.lastd := by
  cases h with
  | underWay _ _ _ hl hm => exact ⟨hl, hm⟩
  | aborted hb | exhausted hb => exact nomatch hb.symm.trans hBusy

theorem PassEnding.complete {t : State} (h : PassEnding t) (hErr : t.stat.err = .none) : CompleteDescent t := by
  cases h with
  | aborted _ _ h => exact absurd hErr h.error
  | exhausted _ _ h | underWay _ _ h => exact h

theorem PassEnding.clear {t : State} (h : PassEnding t) (hDone : t.stat.srchDone = true) :
    t.stat.err = .none ∧ t.lastd = 0 ∧ t.mark = 0 := by
  cases h with
  | exhausted _ _ h hl hm => exact ⟨h.noError, hl, hm⟩
  | aborted _ hd | underWay _ hd => exact nomatch hd.symm.trans hDone

theorem PassEnding.abortedDescent {t : State} (h : PassEnding t) (hErr : t.stat.err ≠ .none) : AbortedDescent t := by
  cases h with
  | aborted _ _ h => exact h
  | exhausted _ _ h | underWay _ _ h => exact absurd h.noError hErr

/-- Both ways in which `FINDALL` runs a pass on: from its head, and by a step (log entry 3). The state `u` that the
turns begin in is clean, with the registry, the capacity and `STICKY` of `s`. -/
theorem findall_continues {s t : State} (h : exec .findall s = .next t ∨ (PassGoesOn s t ∧ PassClean s)) :
    ∃ u : State, t = continuePass u ∧ u.stat.err = .none ∧ u.stat.srchDone = false ∧ u.mark = u.lastd ∧
      u.reg = s.reg ∧ u.cfg = s.cfg ∧ u.sticky = s.sticky := by
  rcases h with hExec | ⟨hGoes, hClean⟩
  · exact ⟨_, command_eq_next (show execFindall s = _ from hExec), rfl, rfl, rfl, rfl, rfl, rfl⟩
  · exact ⟨s, hGoes.eq, hClean.noError, hClean.notDone, hClean.markKept, rfl, rfl, rfl⟩

/-- Settles O43: the last turn of the pass ends in one of three ways, and an aborted one in one of four. -/
theorem findallEndings : Obligations.FindallEndings := by
  refine ⟨fun s t h => ?_, fun s t h => ?_, rfl, rfl, rfl, rfl, rfl⟩
  · obtain ⟨u, ht, hErr, hDone, hMark, hReg, hCfg, hSticky⟩ := findall_continues h
    have hEnding : PassEnding t := ht ▸ continuePass_ending hErr hDone hMark
    have htSticky : t.sticky = s.sticky ||| t.stat.err.stickyBit := by
      rw [ht, ← hSticky]
      exact continuePass_sticky hErr
    have htCfg : t.cfg = s.cfg := by rw [ht, ← hCfg]; exact (continuePass_writesOnly u).cfg
    have htReg : RegistryGrows s.reg t.reg := by rw [ht, ← hReg]; exact continuePass_registryGrows u
    refine ⟨hEnding.busy_iff, hEnding.moreToFind, fun he => ?_, hEnding.clear, htReg, fun he => ?_, fun he => ?_,
      fun he => ?_, fun he => ?_⟩
    all_goals rw [he] at htSticky
    · have hEnd := hEnding.complete he
      exact ⟨htSticky.trans BitVec.or_zero, hEnd.pres, hEnd.registered, hEnd.valid, hEnd.crc⟩
    · obtain ⟨hPres, htMark⟩ := (hEnding.abortedDescent (by simp [he])).noPres he
      exact ⟨hPres, htMark, htSticky⟩
    · exact ⟨(hEnding.abortedDescent (by simp [he])).coll he, htSticky⟩
    · obtain ⟨hPres, hCrc, hValid⟩ := (hEnding.abortedDescent (by simp [he])).crc he
      exact ⟨hPres, hCrc, hValid, htSticky⟩
    · obtain ⟨hPres, hCount, hNew, hValid⟩ := (hEnding.abortedDescent (by simp [he])).regOvf he
      exact ⟨hPres, htCfg ▸ hCount, hNew, hValid, htSticky⟩
  · obtain ⟨hLastd, hReg, -⟩ := descent_aborted_keeps h
    exact ⟨hLastd, hReg⟩

end Sys2Proof.Machine

/-! SUPPORT. A triplet that goes on, with its events (spec/43_search.md R145), and how long a descent takes (R158). -/

namespace Sys2Proof.Machine

/-! ## A triplet that goes on (R145) -/

/-- The slots of a triplet: the pair read, and the bit written. -/
def wireTriplet (c : Config) (a b w : Bool) : List Event := wireRead c a ++ wireRead c b ++ wireWrite c w

@[simp] theorem samplesOf_wireTriplet (c : Config) (a b w : Bool) : samplesOf (wireTriplet c a b w) = [a, b] := by
  simp [wireTriplet]

theorem triplet_agreed_go {pos : Nat} {s : State} {a : Bool} (ha : s.line.peek 0 = a) (hb : s.line.peek 1 = !a) :
    triplet pos s = .go { s with
      srom := setRomBit s.srom pos a
      line := s.line.play (wireTriplet s.cfg a (!a) (romBit (setRomBit s.srom pos a) pos)) } := by
  rw [triplet_agreed ha hb, Flow.andThen_go, State.writeSlot_eq, wireTriplet, Line.play_append _ (_ ++ _)]

theorem triplet_discrepancy_go {pos : Nat} {s : State} (ha : s.line.peek 0 = false) (hb : s.line.peek 1 = false) :
    triplet pos s = .go { s with
      srom := (decideBranch pos s).srom
      mark := (decideBranch pos s).mark
      line := s.line.play (wireTriplet s.cfg false false (romBit (decideBranch pos s).srom pos)) } := by
  rw [triplet_discrepancy ha hb, Flow.andThen_go, State.writeSlot_eq, decideBranch_onLine, wireTriplet,
    Line.play_append _ (_ ++ _)]

/-- A triplet that goes on reads a pair and writes the bit that `SROM` holds at its position afterwards. -/
theorem triplet_go_line {pos : Nat} {s t : State} (h : triplet pos s = .go t) :
    t.cfg = s.cfg ∧ ∃ a b, t.line = s.line.play (wireTriplet s.cfg a b (romBit t.srom pos)) := by
  have agreed (v : Bool) (ha : s.line.peek 0 = v) (hb : s.line.peek 1 = !v) :
      t.cfg = s.cfg ∧ ∃ a b, t.line = s.line.play (wireTriplet s.cfg a b (romBit t.srom pos)) := by
    obtain rfl := Flow.go.inj ((triplet_agreed_go ha hb).symm.trans h)
    refine ⟨rfl, v, !v, ?_⟩
    dsimp only
  cases ha : s.line.peek 0 <;> cases hb : s.line.peek 1
  · obtain rfl := Flow.go.inj ((triplet_discrepancy_go ha hb).symm.trans h)
    refine ⟨rfl, false, false, ?_⟩
    dsimp only
  · exact agreed false ha hb
  · exact agreed true ha hb
  · rw [triplet_collision ha hb] at h
    cases h

/-! ## The length of a descent (R158) -/

/-- The trace tells which events were played. -/
theorem Line.play_injective {l : Line} {es fs : List Event} (h : l.play es = l.play fs) : es = fs := by
  have hTrace := congrArg Line.trace h
  rw [Line.play_trace, Line.play_trace] at hTrace
  exact List.reverse_injective (List.append_cancel_right hTrace)

theorem ticks_wireTriplet_spec (a b w : Bool) : ticks (wireTriplet .spec a b w) = if w = true then 160 else 170 := by
  rw [wireTriplet, ticks_append, ticks_append, ticks_wireRead_spec, ticks_wireRead_spec, ticks_wireWrite_spec]
  cases w <;> rfl

/-- The events of a descent that goes on as far as `n` triplets after its head: their length, and their samples. -/
structure TripletsTake (n : Nat) (es : List Event) : Prop where
  atLeast : 160 * n ≤ ticks es
  atMost : ticks es ≤ 170 * n
  samples : (samplesOf es).length = 2 * n

theorem triplets_go_line {ks : List Nat} {s t : State} (hs : s.cfg = .spec) (h : Flow.forEach triplet ks s = .go t) :
    ∃ es, t.line = s.line.play es ∧ TripletsTake ks.length es := by
  induction ks generalizing s with
  | nil =>
    cases h
    exact ⟨[], rfl, Nat.le_refl 0, Nat.le_refl 0, rfl⟩
  | cons k ks ih =>
    obtain ⟨u, hu, hRest⟩ := Flow.andThen_eq_go h
    obtain ⟨hCfg, a, b, hLine⟩ := triplet_go_line hu
    obtain ⟨es, hes, hLeast, hMost, hSamples⟩ := ih (hCfg.trans hs) hRest
    have hTicks := ticks_wireTriplet_spec a b (romBit u.srom k)
    refine ⟨wireTriplet .spec a b (romBit u.srom k) ++ es, ?_, ?_, ?_, ?_⟩
    · rw [hes, hLine, hs, Line.play_append]
    · rw [ticks_append, hTicks, List.length_cons]
      split <;> omega
    · rw [ticks_append, hTicks, List.length_cons]
      split <;> omega
    · rw [samplesOf_append, samplesOf_wireTriplet, List.length_append, hSamples, List.length_cons, List.length_cons,
        List.length_cons, List.length_nil]
      omega

theorem descentHead_go {s t : State} (h : descentHead s = .go t) :
    t.cfg = s.cfg ∧ t.line = s.line.play (wireReset s.cfg false ++ wireBytesOut s.cfg [0xF0]) := by
  cases hp : s.line.peek 0 with
  | false =>
    rw [descentHead_present hp] at h
    cases h
    exact ⟨rfl, rfl⟩
  | true =>
    rw [descentHead_absent hp] at h
    cases h

theorem validate_go {s t : State} (h : validate s = .go t) : t = { s with crc := romChecksum s.srom } := by
  unfold validate at h
  dsimp only at h
  split at h <;> cases h
  rfl

theorem register_go_line {s t : State} (h : register s = .go t) : t.line = s.line := by
  unfold register at h
  split at h
  · cases h
    rfl
  · split at h <;> cases h
    rfl

/-- A complete descent: its head, its 64 triplets, and nothing on the line after them. -/
theorem descent_go_line {s t : State} (h : descent s = .go t) :
    ∃ u v, descentHead s = .go u ∧ Flow.forEach triplet (List.range' 1 64) u = .go v ∧ t.line = v.line := by
  obtain ⟨u, hHead, h⟩ := Flow.andThen_eq_go h
  obtain ⟨v, hTriplets, h⟩ := Flow.andThen_eq_go h
  obtain ⟨w, hValid, h⟩ := Flow.andThen_eq_go h
  obtain ⟨x, hRegister, h⟩ := Flow.andThen_eq_go h
  cases h
  exact ⟨u, v, hHead, hTriplets, (register_go_line hRegister).trans (validate_go hValid ▸ rfl)⟩

theorem ticks_wireSearchByte_spec : ticks (wireBytesOut .spec [0xF0]) = 504 := by
  rw [ticks_wireByteOut_spec]
  rfl

/-- Settles O58: the head and each triplet have their length, and a descent is the head and 64 triplets. -/
theorem descentLength : Obligations.DescentLength := by
  intro s t es hs ht
  refine ⟨fun h => ?_, fun pos h => ?_, fun h => ?_⟩
  · have hLine := (descentHead_go h).2
    rw [hs] at hLine
    exact ⟨Line.play_injective (ht.symm.trans hLine), ticks_wireReset_spec false, ticks_wireSearchByte_spec⟩
  · obtain ⟨-, a, b, hLine⟩ := triplet_go_line h
    rw [Line.play_injective (ht.symm.trans hLine), hs, ticks_wireTriplet_spec]
  · obtain ⟨u, v, hHead, hTriplets, hLine⟩ := descent_go_line h
    obtain ⟨huCfg, huLine⟩ := descentHead_go hHead
    obtain ⟨fs, hfs, hLeast, hMost, hSamples⟩ := triplets_go_line (huCfg.trans hs) hTriplets
    rw [hLine, hfs, huLine, hs, ← Line.play_append] at ht
    rw [← Line.play_injective ht, ticks_append, ticks_append, ticks_wireReset_spec, ticks_wireSearchByte_spec,
      samplesOf_append, samplesOf_append, samplesOf_wireReset, samplesOf_wireBytesOut, List.append_nil,
      List.length_append, hSamples]
    rw [List.length_range'] at hLeast hMost ⊢
    exact ⟨by omega, by omega, rfl⟩

end Sys2Proof.Machine

/-! SUPPORT. The first descent of a pass does not read what `SROM` held before (spec/43_search.md R153). -/

namespace Sys2Proof.Machine

/-! ## The first descent -/

/-- A triplet of a first descent writes a bit of `SROM` that does not depend on what `SROM` held, or collides. -/
theorem triplet_first {pos : Nat} (h1 : 1 ≤ pos) (h64 : pos ≤ 64) {s : State} (hs : s.lastd = 0) :
    (∃ (v : Bool) (m : BitVec 7) (l : Line), ∀ a, triplet pos { s with srom := a } =
      .go { s with srom := setRomBit a pos v, mark := m, line := l }) ∨
    (∃ t : State, t.stat.err = .coll ∧ ∀ a, triplet pos { s with srom := a } = .aborted { t with srom := a }) := by
  have hBeyond : s.lastd.toNat < pos := by
    rw [hs]
    exact h1
  have agreed (v : Bool) (ha : s.line.peek 0 = v) (hb : s.line.peek 1 = !v) :
      ∃ (v : Bool) (m : BitVec 7) (l : Line), ∀ a, triplet pos { s with srom := a } =
        .go { s with srom := setRomBit a pos v, mark := m, line := l } :=
    ⟨v, s.mark, s.line.play (wireTriplet s.cfg v (!v) v), fun a => by
      rw [triplet_agreed_go (s := { s with srom := a }) ha hb, romBit_setRomBit_same a h1 h64]⟩
  cases ha : s.line.peek 0 <;> cases hb : s.line.peek 1
  · refine .inl ⟨false, BitVec.ofNat 7 pos, s.line.play (wireTriplet s.cfg false false false), fun a => ?_⟩
    rw [triplet_discrepancy_go (s := { s with srom := a }) ha hb,
      decideBranch_beyond (s := { s with srom := a }) hBeyond, romBit_setRomBit_same a h1 h64]
  · exact .inl (agreed false ha hb)
  · exact .inl (agreed true ha hb)
  · exact .inr ⟨raise .coll { s with line := s.line.play (wireRead s.cfg true ++ wireRead s.cfg true) }, rfl,
      fun a => triplet_collision (s := { s with srom := a }) ha hb⟩

/-- The triplets of a first descent leave an `SROM` that depends on what `SROM` held only at the positions that they did
not visit. -/
theorem triplets_first {ks : List Nat} (hks : ∀ k ∈ ks, 1 ≤ k ∧ k ≤ 64) {s : State} (hs : s.lastd = 0) :
    (∃ (f : RomAddr → RomAddr) (m : BitVec 7) (l : Line),
      (∀ a, Flow.forEach triplet ks { s with srom := a } = .go { s with srom := f a, mark := m, line := l }) ∧
      ∀ a b q, 1 ≤ q → romBit a q = romBit b q ∨ q ∈ ks → romBit (f a) q = romBit (f b) q) ∨
    (∃ (f : RomAddr → RomAddr) (t : State), t.stat.err = .coll ∧
      ∀ a, Flow.forEach triplet ks { s with srom := a } = .aborted { t with srom := f a }) := by
  induction ks generalizing s with
  | nil => exact .inl ⟨id, s.mark, s.line, fun a => rfl, fun a b q _ h => h.resolve_right List.not_mem_nil⟩
  | cons k ks ih =>
    obtain ⟨h1, h64⟩ := hks k List.mem_cons_self
    obtain ⟨v, m, l, hTriplet⟩ | ⟨t, ht, hTriplet⟩ := triplet_first h1 h64 hs
    · obtain ⟨f, m', l', hRest, hf⟩ | ⟨f, t, ht, hRest⟩ :=
        ih (fun k hk => hks k (List.mem_cons_of_mem _ hk)) (s := { s with mark := m, line := l }) hs
      · refine .inl ⟨fun a => f (setRomBit a k v), m', l', fun a => ?_, fun a b q hq h => hf _ _ q hq ?_⟩
        · rw [Flow.forEach, hTriplet, Flow.andThen_go]
          exact hRest (setRomBit a k v)
        · rw [List.mem_cons, ← or_assoc] at h
          refine h.imp_left fun h => ?_
          rw [romBit_setRomBit a h1 h64 v hq, romBit_setRomBit b h1 h64 v hq]
          split
          · rfl
          · next hne => exact h.resolve_right hne
      · refine .inr ⟨fun a => f (setRomBit a k v), t, ht, fun a => ?_⟩
        rw [Flow.forEach, hTriplet, Flow.andThen_go]
        exact hRest (setRomBit a k v)
    · refine .inr ⟨id, t, ht, fun a => ?_⟩
      rw [Flow.forEach, hTriplet, Flow.andThen_aborted]
      rfl

/-- A first descent is the same whatever `SROM` held, or aborts early, with what `SROM` held in `SROM` alone. -/
theorem descent_first {s : State} (hs : s.lastd = 0) :
    (∃ F, ∀ a, descent { s with srom := a } = F) ∨
    (∃ (f : RomAddr → RomAddr) (t : State), (t.stat.err = .noPres ∨ t.stat.err = .coll) ∧
      ∀ a, descent { s with srom := a } = .aborted { t with srom := f a }) := by
  cases hp : s.line.peek 0 with
  | true => exact .inr ⟨id, afterNoPresence s, .inl rfl, fun a => descent_absent (s := { s with srom := a }) hp⟩
  | false =>
    have hHead (a : RomAddr) := descentHead_present (s := { s with srom := a }) hp
    obtain ⟨f, m, l, hTriplets, hf⟩ | ⟨f, t, ht, hTriplets⟩ :=
      triplets_first (ks := List.range' 1 64) (fun _ => mem_positions.1)
        (s := { s with
          stat.pres := true, mark := 0, line := s.line.play (wireReset s.cfg false ++ wireBytesOut s.cfg [0xF0]) }) hs
    · have hSame (a : RomAddr) : f a = f s.srom :=
        romAddr_ext fun q hq hq64 => hf a s.srom q hq (.inr (mem_positions.2 ⟨hq, hq64⟩))
      refine .inl ⟨descent s, fun a => ?_⟩
      rw [descent, descent, hHead a, show descentHead s = _ from hHead s.srom, Flow.andThen_go, Flow.andThen_go]
      rw [show Flow.forEach triplet _ _ = _ from hTriplets a, show Flow.forEach triplet _ _ = _ from hTriplets s.srom,
        hSame a]
    · refine .inr ⟨f, t, .inr ht, fun a => ?_⟩
      rw [descent, hHead a, Flow.andThen_go, show Flow.forEach triplet _ _ = _ from hTriplets a, Flow.andThen_aborted]

theorem runPass_succ_congr {s u : State} (h : passTurn s = passTurn u) (n : Nat) :
    runPass (n + 1) s = runPass (n + 1) u := by
  rw [runPass, runPass, h]

/-- Settles O44: every bit of `SROM` is written before it is read, in the first descent; the later ones start from what
that one leaves. -/
theorem firstDescentIgnoresOldAddress : Obligations.FirstDescentIgnoresOldAddress := by
  refine ⟨fun s t a hs => ?_, fun s a => ?_⟩
  · obtain ⟨F, hF⟩ | ⟨f, u, hErr, hf⟩ := descent_first hs
    · have hSame : descent { s with srom := a } = descent s := (hF a).trans (hF s.srom).symm
      exact ⟨hSame.trans, fun h => ⟨t.srom, hSame.trans h, fun _ => rfl⟩⟩
    · have hs' : descent s = _ := hf s.srom
      rw [hs', hf a]
      refine ⟨nofun, fun h => ⟨f a, ?_, fun hLate => ?_⟩⟩
      · cases h
        rfl
      · cases h
        rcases hErr with he | he <;> simp [he] at hLate
  · obtain ⟨F, hF⟩ | ⟨f, u, -, hf⟩ := descent_first (s := startPass s) rfl
    · have hSame : descent { startPass s with srom := a } = descent (startPass s) :=
        (hF a).trans (hF (startPass s).srom).symm
      refine ⟨(continuePass (startPass s)).srom, ?_⟩
      exact runPass_succ_congr (by rw [passTurn, passTurn, hSame]) s.cfg.nDev
    · have hs' : descent (startPass s) = _ := hf (startPass s).srom
      refine ⟨f a, ?_⟩
      rw [continuePass_of_aborted (hf a), continuePass_of_aborted hs']

end Sys2Proof.Machine

/-! SUPPORT. A pass over a fixed set of devices (spec/43_search.md R142, R154): each descent is steered to the device
after the last one found, because its mark is the first position where the two differ. -/

namespace Sys2Proof.Machine

/-! ## The samples left after events -/

theorem Line.emit_bus (l : Line) (e : Event) : (l.emit e).bus = l.bus.drop (samplesOf [e]).length := by
  cases e <;> rfl

theorem Line.play_bus (l : Line) (es : List Event) : (l.play es).bus = l.bus.drop (samplesOf es).length := by
  induction es generalizing l with
  | nil => rfl
  | cons e es ih =>
    rw [Line.play_cons, ih, Line.emit_bus, List.drop_drop, show e :: es = [e] ++ es from rfl, samplesOf_append,
      List.length_append]

/-! ## The order of the wire (R154) -/

/-- `p` is the first position where the two differ, and there `a` has 0 and `b` has 1. -/
structure SplitAt (a b : RomAddr) (p : Nat) : Prop where
  one_le : 1 ≤ p
  le_64 : p ≤ 64
  agree : ∀ q, 1 ≤ q → q < p → romBit a q = romBit b q
  zero : romBit a p = false
  one : romBit b p = true

theorem SplitAt.wireBefore {a b : RomAddr} {p : Nat} (h : SplitAt a b p) : wireBefore a b :=
  ⟨p, h.one_le, h.le_64, h.agree, h.zero, h.one⟩

theorem wireBefore.exists_splitAt {a b : RomAddr} : wireBefore a b → ∃ p, SplitAt a b p :=
  fun ⟨p, h1, h64, hAgree, hZero, hOne⟩ => ⟨p, h1, h64, hAgree, hZero, hOne⟩

/-- What has the bits of `a` as far as the split stands before `b` too. -/
theorem SplitAt.of_agree_left {a b d : RomAddr} {p pos : Nat} (h : SplitAt a b p) (hp : p < pos)
    (hd : ∀ q, 1 ≤ q → q < pos → romBit d q = romBit a q) : SplitAt d b p :=
  { h with
    agree := fun q hq hlt => (hd q hq (hlt.trans hp)).trans (h.agree q hq hlt)
    zero := (hd p h.one_le hp).trans h.zero }

theorem SplitAt.of_agree_right {a b d : RomAddr} {p pos : Nat} (h : SplitAt a b p) (hp : p < pos)
    (hd : ∀ q, 1 ≤ q → q < pos → romBit d q = romBit b q) : SplitAt a d p :=
  { h with
    agree := fun q hq hlt => (h.agree q hq hlt).trans (hd q hq (hlt.trans hp)).symm
    one := (hd p h.one_le hp).trans h.one }

theorem wireBefore_asymm {a b : RomAddr} (h : wireBefore a b) : ¬ wireBefore b a := by
  obtain ⟨p, hp⟩ := h.exists_splitAt
  intro h'
  obtain ⟨q, hq⟩ := h'.exists_splitAt
  rcases lt_trichotomy p q with hlt | rfl | hlt
  · exact nomatch hp.one.symm.trans ((hq.agree p hp.one_le hlt).trans hp.zero)
  · exact nomatch hp.zero.symm.trans hq.one
  · exact nomatch hq.one.symm.trans ((hp.agree q hq.one_le hlt).trans hq.zero)

theorem wireBefore_irrefl (a : RomAddr) : ¬ wireBefore a a := fun h => wireBefore_asymm h h

section
variable {before after : List RomAddr} {a d : RomAddr} (hds : (before ++ a :: after).Pairwise wireBefore)
include hds

/-- In a list in the order of the wire, what comes after an entry stands after it. -/
theorem mem_after_of_wireBefore (hd : d ∈ before ++ a :: after) (h : wireBefore a d) : d ∈ after := by
  obtain ⟨-, -, hBefore⟩ := List.pairwise_append.1 hds
  rcases List.mem_append.1 hd with hd | hd
  · exact absurd h (wireBefore_asymm (hBefore d hd a List.mem_cons_self))
  · exact (List.mem_cons.1 hd).resolve_left fun he => wireBefore_irrefl a (he ▸ h)

theorem mem_before_of_wireBefore (hd : d ∈ before ++ a :: after) (h : wireBefore d a) : d ∈ before := by
  obtain ⟨-, hAfter, -⟩ := List.pairwise_append.1 hds
  rcases List.mem_append.1 hd with hd | hd
  · exact hd
  · rcases List.mem_cons.1 hd with rfl | hd
    · exact absurd h (wireBefore_irrefl d)
    · exact absurd h (wireBefore_asymm ((List.pairwise_cons.1 hAfter).1 d hd))

end

/-- No entry lies between an entry and the next one. -/
theorem not_wireBefore_between {before after : List RomAddr} {a b d : RomAddr}
    (hds : (before ++ a :: b :: after).Pairwise wireBefore) (hd : d ∈ before ++ a :: b :: after)
    (ha : wireBefore a d) : ¬ wireBefore d b := by
  intro hb
  have hAfter : d ∈ b :: after := mem_after_of_wireBefore hds hd ha
  have hSplit : before ++ a :: b :: after = (before ++ [a]) ++ b :: after := by simp
  rw [hSplit] at hds hd
  have hBefore : d ∈ before ++ [a] := mem_before_of_wireBefore hds hd hb
  exact wireBefore_irrefl d ((List.pairwise_append.1 hds).2.2 d hBefore d hAfter)

/-! ## What the devices answer (R142) -/

theorem mem_takingPart {ds : List RomAddr} {a d : RomAddr} {pos : Nat} :
    d ∈ takingPart ds a pos ↔ d ∈ ds ∧ ∀ q, 1 ≤ q → q < pos → romBit d q = romBit a q := by
  simp only [takingPart, List.mem_filter, List.all_eq_true, List.mem_range'_1, beq_iff_eq]
  refine and_congr_right fun _ => forall_congr' fun q => ?_
  rw [and_imp]
  exact forall_congr' fun h1 => imp_congr_left (by omega)

theorem self_mem_takingPart {ds : List RomAddr} {a : RomAddr} (ha : a ∈ ds) (pos : Nat) : a ∈ takingPart ds a pos :=
  mem_takingPart.2 ⟨ha, fun _ _ _ => rfl⟩

theorem wireBefore_of_one {ds : List RomAddr} {a d : RomAddr} {pos : Nat} (h1 : 1 ≤ pos) (h64 : pos ≤ 64)
    (hd : d ∈ takingPart ds a pos) (hZero : romBit a pos = false) (hOne : romBit d pos = true) : wireBefore a d :=
  ⟨pos, h1, h64, fun q hq hlt => ((mem_takingPart.1 hd).2 q hq hlt).symm, hZero, hOne⟩

theorem wireBefore_of_zero {ds : List RomAddr} {a d : RomAddr} {pos : Nat} (h1 : 1 ≤ pos) (h64 : pos ≤ 64)
    (hd : d ∈ takingPart ds a pos) (hOne : romBit a pos = true) (hZero : romBit d pos = false) : wireBefore d a :=
  ⟨pos, h1, h64, (mem_takingPart.1 hd).2, hZero, hOne⟩

/-- A discrepancy: some device still taking part has 0 at the position, and some device 1. -/
abbrev Discrepancy (ds : List RomAddr) (a : RomAddr) (pos : Nat) : Prop := pairAt ds a pos = (false, false)

theorem discrepancy_iff {ds : List RomAddr} {a : RomAddr} {pos : Nat} :
    Discrepancy ds a pos ↔
      (∃ d ∈ takingPart ds a pos, romBit d pos = false) ∧ ∃ d ∈ takingPart ds a pos, romBit d pos = true := by
  simp [Discrepancy, pairAt]

/-- Without a discrepancy the pair is the bit of every device taking part, and its complement. -/
theorem pairAt_of_agreed {ds : List RomAddr} {a : RomAddr} {pos : Nat} (ha : a ∈ ds) (h : ¬ Discrepancy ds a pos) :
    pairAt ds a pos = (romBit a pos, !romBit a pos) := by
  have hSelf := self_mem_takingPart ha pos
  cases hBit : romBit a pos with
  | false =>
    have hFst : (pairAt ds a pos).1 = false :=
      Bool.eq_false_iff.2 fun hAll => nomatch hBit.symm.trans (List.all_eq_true.1 hAll a hSelf)
    exact Prod.ext hFst (Bool.eq_true_of_not_eq_false fun hSnd => h (Prod.ext hFst hSnd))
  | true =>
    have hSnd : (pairAt ds a pos).2 = false := by
      refine Bool.eq_false_iff.2 fun hAll => ?_
      have hNot := List.all_eq_true.1 hAll a hSelf
      rw [hBit] at hNot
      cases hNot
    exact Prod.ext (Bool.eq_true_of_not_eq_false fun hFst => h (Prod.ext hFst hSnd)) hSnd

/-! ## The mark of a descent (R146) -/

/-- The positions that a descent to `a` marks: a discrepancy where it takes the branch 0. -/
abbrev Fork (ds : List RomAddr) (a : RomAddr) (pos : Nat) : Prop := Discrepancy ds a pos ∧ romBit a pos = false

theorem fork_iff {ds : List RomAddr} {a : RomAddr} {pos : Nat} (ha : a ∈ ds) :
    Fork ds a pos ↔ romBit a pos = false ∧ ∃ d ∈ takingPart ds a pos, romBit d pos = true := by
  rw [Fork, discrepancy_iff]
  exact ⟨fun ⟨⟨_, hOne⟩, hZero⟩ => ⟨hZero, hOne⟩, fun ⟨hZero, hOne⟩ =>
    ⟨⟨⟨a, self_mem_takingPart ha pos, hZero⟩, hOne⟩, hZero⟩⟩

/-- The mark after these positions of a descent to `a`. -/
def markAfter (ds : List RomAddr) (a : RomAddr) (ks : List Nat) (m : BitVec 7) : BitVec 7 :=
  ks.foldl (fun m pos => if Fork ds a pos then BitVec.ofNat 7 pos else m) m

theorem markAfter_of_no_fork {ds : List RomAddr} {a : RomAddr} {ks : List Nat} (h : ∀ k ∈ ks, ¬ Fork ds a k)
    (m : BitVec 7) : markAfter ds a ks m = m := by
  induction ks generalizing m with
  | nil => rfl
  | cons k ks ih =>
    obtain ⟨hk, hks⟩ := List.forall_mem_cons.1 h
    rw [markAfter, List.foldl_cons, if_neg hk]
    exact ih hks m

/-- The mark of a whole descent to `a`. -/
def descentMark (ds : List RomAddr) (a : RomAddr) : BitVec 7 := markAfter ds a (List.range' 1 64) 0

/-- The mark is the last fork. -/
theorem descentMark_of_last_fork {ds : List RomAddr} {a : RomAddr} {p : Nat} (h1 : 1 ≤ p) (h64 : p ≤ 64)
    (hp : Fork ds a p) (hLast : ∀ q, p < q → q ≤ 64 → ¬ Fork ds a q) : descentMark ds a = BitVec.ofNat 7 p := by
  have hSplit : List.range' 1 64 = List.range' 1 (p - 1) ++ p :: List.range' (p + 1) (64 - p) := by
    obtain ⟨k, rfl⟩ : ∃ k, p = 1 + k := ⟨p - 1, by omega⟩
    rw [← List.range'_succ, Nat.add_sub_cancel_left, List.range'_append_1]
    congr 1
    omega
  rw [descentMark, hSplit, markAfter, List.foldl_append, List.foldl_cons, if_pos hp]
  refine markAfter_of_no_fork (fun q hq => ?_) _
  have := List.mem_range'_1.1 hq
  exact hLast q (by omega) (by omega)

/-! ## A descent steered to a device -/

/-- What `Decide` does at this position, with `SROM` holding `old`, leads to `a`. -/
structure BranchFits (a old : RomAddr) (lastd pos : Nat) : Prop where
  atMark : pos = lastd → romBit a pos = true
  beyond : lastd < pos → romBit a pos = false
  retrace : pos < lastd → romBit old pos = romBit a pos

theorem decideBranch_of_fits {a : RomAddr} {pos : Nat} (h1 : 1 ≤ pos) (h64 : pos ≤ 64) {s : State}
    (h : BranchFits a s.srom s.lastd.toNat pos) :
    decideBranch pos s = { s with
      srom := setRomBit s.srom pos (romBit a pos)
      mark := if romBit a pos = false then BitVec.ofNat 7 pos else s.mark } := by
  rcases lt_trichotomy pos s.lastd.toNat with hlt | heq | hgt
  · rw [decideBranch_retrace hlt, ← h.retrace hlt, setRomBit_romBit_self _ h1 h64]
    cases romBit s.srom pos <;> rfl
  · rw [decideBranch_at heq, h.atMark heq]
    rfl
  · rw [decideBranch_beyond hgt, h.beyond hgt]
    rfl

/-- The events of position `pos` of a descent to `a` among the devices `ds`. -/
def wireTripletAt (c : Config) (ds : List RomAddr) (a : RomAddr) (pos : Nat) : List Event :=
  wireTriplet c (pairAt ds a pos).1 (pairAt ds a pos).2 (romBit a pos)

/-- The samples of position `pos`. -/
def pairSamples (ds : List RomAddr) (a : RomAddr) (pos : Nat) : List Bool := [(pairAt ds a pos).1, (pairAt ds a pos).2]

theorem triplet_toward {ds : List RomAddr} {a : RomAddr} (ha : a ∈ ds) {pos : Nat} (h1 : 1 ≤ pos) (h64 : pos ≤ 64)
    {s : State} {rest : List Bool} (hBus : s.line.bus = pairSamples ds a pos ++ rest)
    (hFits : Discrepancy ds a pos → BranchFits a s.srom s.lastd.toNat pos) :
    triplet pos s = .go { s with
      srom := setRomBit s.srom pos (romBit a pos)
      mark := if Fork ds a pos then BitVec.ofNat 7 pos else s.mark
      line := s.line.play (wireTripletAt s.cfg ds a pos) } := by
  have h0 : s.line.peek 0 = (pairAt ds a pos).1 := Line.peek_of_bus _ _ _ hBus 0 (by simp [pairSamples])
  have h1' : s.line.peek 1 = (pairAt ds a pos).2 := Line.peek_of_bus _ _ _ hBus 1 (by simp [pairSamples])
  by_cases hd : Discrepancy ds a pos
  · have hFork : Fork ds a pos ↔ romBit a pos = false := and_iff_right hd
    have hEvents : wireTripletAt s.cfg ds a pos = wireTriplet s.cfg false false (romBit a pos) := by
      rw [wireTripletAt, hd]
    rw [hd] at h0 h1'
    rw [triplet_discrepancy_go h0 h1', decideBranch_of_fits h1 h64 (hFits hd), romBit_setRomBit_same _ h1 h64, hEvents]
    simp only [hFork]
  · have hPair := pairAt_of_agreed ha hd
    have hEvents : wireTripletAt s.cfg ds a pos = wireTriplet s.cfg (romBit a pos) (!romBit a pos) (romBit a pos) := by
      rw [wireTripletAt, hPair]
    rw [hPair] at h0 h1'
    rw [triplet_agreed_go h0 h1', romBit_setRomBit_same _ h1 h64, hEvents, if_neg fun hFork => hd hFork.1]

/-- `x` with the bits of `a` at these positions. -/
def copyBits (a : RomAddr) (ks : List Nat) (x : RomAddr) : RomAddr :=
  ks.foldl (fun x pos => setRomBit x pos (romBit a pos)) x

theorem romBit_copyBits (a : RomAddr) {ks : List Nat} (hks : ∀ k ∈ ks, 1 ≤ k ∧ k ≤ 64) (x : RomAddr) {q : Nat}
    (hq : 1 ≤ q) (h : q ∈ ks ∨ romBit x q = romBit a q) : romBit (copyBits a ks x) q = romBit a q := by
  induction ks generalizing x with
  | nil => exact h.resolve_left List.not_mem_nil
  | cons k ks ih =>
    obtain ⟨⟨h1, h64⟩, hRest⟩ := List.forall_mem_cons.1 hks
    refine ih hRest (setRomBit x k (romBit a k)) ?_
    rw [romBit_setRomBit x h1 h64 _ hq]
    split
    · next hk => exact .inr (hk ▸ rfl)
    · next hk => exact h.imp_left fun h => (List.mem_cons.1 h).resolve_left hk

theorem copyBits_all (a x : RomAddr) : copyBits a (List.range' 1 64) x = a :=
  romAddr_ext fun _ hq hq64 => romBit_copyBits a (fun _ => mem_positions.1) x hq (.inl (mem_positions.2 ⟨hq, hq64⟩))

theorem triplets_toward {ds : List RomAddr} {a : RomAddr} (ha : a ∈ ds) {ks : List Nat} (hNodup : ks.Nodup)
    (hks : ∀ k ∈ ks, 1 ≤ k ∧ k ≤ 64) {s : State} {rest : List Bool}
    (hBus : s.line.bus = ks.flatMap (pairSamples ds a) ++ rest)
    (hFits : ∀ k ∈ ks, Discrepancy ds a k → BranchFits a s.srom s.lastd.toNat k) :
    Flow.forEach triplet ks s = .go { s with
      srom := copyBits a ks s.srom
      mark := markAfter ds a ks s.mark
      line := s.line.play (ks.flatMap (wireTripletAt s.cfg ds a)) } := by
  induction ks generalizing s with
  | nil => rfl
  | cons k ks ih =>
    obtain ⟨⟨h1, h64⟩, hksRest⟩ := List.forall_mem_cons.1 hks
    obtain ⟨hFitsHere, hFitsRest⟩ := List.forall_mem_cons.1 hFits
    obtain ⟨hk, hNodup⟩ := List.nodup_cons.1 hNodup
    rw [List.flatMap_cons, List.append_assoc] at hBus
    rw [Flow.forEach, triplet_toward ha h1 h64 hBus hFitsHere, Flow.andThen_go, ih hNodup hksRest]
    · rw [← Line.play_append]
      rfl
    · dsimp only
      rw [Line.play_bus, hBus, wireTripletAt, samplesOf_wireTriplet]
      rfl
    · intro j hj hd
      obtain ⟨hAt, hBeyond, hRetrace⟩ := hFitsRest j hj hd
      refine ⟨hAt, hBeyond, fun hlt => ?_⟩
      dsimp only
      rw [romBit_setRomBit _ h1 h64 _ (hksRest j hj).1, if_neg (fun h : j = k => hk (h ▸ hj))]
      exact hRetrace hlt

/-- The registry after a descent to `a` (R151). -/
def registerIn (reg : List RomAddr) (a : RomAddr) : List RomAddr := if a ∈ reg then reg else reg ++ [a]

theorem register_go {s : State} (hRoom : s.srom ∉ s.reg → s.reg.length < s.cfg.nDev) :
    register s = .go { s with reg := registerIn s.reg s.srom } := by
  unfold register registerIn
  by_cases h : s.srom ∈ s.reg
  · rw [if_pos h, if_pos h]
  · rw [if_neg h, if_neg h, if_neg (hRoom h).ne]

theorem validate_valid {s : State} (h : ValidRom s.srom) : validate s = .go { s with crc := s.srom[7] } := by
  unfold validate
  rw [show romChecksum s.srom = s.srom[7] from h]
  simp

/-- What follows the triplets of a descent to a valid address. -/
theorem descent_of_triplets {s u t : State} (hHead : descentHead s = .go u)
    (hTriplets : Flow.forEach triplet (List.range' 1 64) u = .go t) (hv : ValidRom t.srom)
    (hRoom : t.srom ∉ t.reg → t.reg.length < t.cfg.nDev) :
    descent s = .go { t with crc := t.srom[7], reg := registerIn t.reg t.srom, lastd := t.mark } := by
  rw [descent, hHead, Flow.andThen_go, hTriplets, Flow.andThen_go, validate_valid hv, Flow.andThen_go,
    register_go (s := { t with crc := t.srom[7] }) hRoom, Flow.andThen_go]

/-- The search state `old`, `lastd` leads the next descent to `a`. -/
def LeadsTo (ds : List RomAddr) (a old : RomAddr) (lastd : Nat) : Prop :=
  ∀ pos, 1 ≤ pos → pos ≤ 64 → Discrepancy ds a pos → BranchFits a old lastd pos

/-- The state after a complete descent to `a`. -/
def afterDescent (ds : List RomAddr) (a : RomAddr) (s : State) : State :=
  { s with
    stat.pres := true, srom := a, crc := a[7], lastd := descentMark ds a, mark := descentMark ds a
    reg := registerIn s.reg a, line := s.line.play (wireDescent s.cfg ds a) }

theorem wireDescent_eq (c : Config) (ds : List RomAddr) (a : RomAddr) :
    wireDescent c ds a =
      wireReset c false ++ wireBytesOut c [0xF0] ++ (List.range' 1 64).flatMap (wireTripletAt c ds a) := rfl

theorem descent_toward {ds : List RomAddr} {a : RomAddr} (ha : a ∈ ds) (hv : ValidRom a) {s : State} {rest : List Bool}
    (hBus : s.line.bus = descentSamples ds a ++ rest) (hLeads : LeadsTo ds a s.srom s.lastd.toNat)
    (hRoom : a ∉ s.reg → s.reg.length < s.cfg.nDev) : descent s = .go (afterDescent ds a s) := by
  have hPresent : s.line.peek 0 = false := Line.peek_of_bus _ _ _ hBus 0 (by simp [descentSamples])
  have hTriplets := triplets_toward ha (List.nodup_range' (step := 1)) (fun _ => mem_positions.1) (rest := rest)
    (s := { s with
      stat.pres := true, mark := 0, line := s.line.play (wireReset s.cfg false ++ wireBytesOut s.cfg [0xF0]) })
    (by
      dsimp only
      rw [Line.play_bus, hBus, samplesOf_append, samplesOf_wireReset, samplesOf_wireBytesOut]
      rfl)
    fun k hk => hLeads k (mem_positions.1 hk).1 (mem_positions.1 hk).2
  rw [copyBits_all, ← Line.play_append] at hTriplets
  rw [descent_of_triplets (descentHead_present hPresent) hTriplets hv hRoom, afterDescent, wireDescent_eq, descentMark]

/-! ## From one device to the next (R154) -/

/-- The first descent is led to the first device. -/
theorem leadsTo_first {a : RomAddr} {after : List RomAddr} (hds : (a :: after).Pairwise wireBefore) (old : RomAddr) :
    LeadsTo (a :: after) a old 0 := by
  intro pos h1 h64 hd
  refine ⟨by omega, fun _ => Bool.eq_false_iff.2 fun hOne => ?_, by omega⟩
  obtain ⟨⟨d, hTakes, hZero⟩, -⟩ := discrepancy_iff.1 hd
  exact List.not_mem_nil (mem_before_of_wireBefore (before := []) hds (mem_takingPart.1 hTakes).1
    (wireBefore_of_zero h1 h64 hTakes hOne hZero))

/-- The descent to the last device marks nothing. -/
theorem descentMark_last {before : List RomAddr} {a : RomAddr} (hds : (before ++ [a]).Pairwise wireBefore) :
    descentMark (before ++ [a]) a = 0 := by
  refine markAfter_of_no_fork (fun q hq hFork => ?_) 0
  obtain ⟨h1, h64⟩ := mem_positions.1 hq
  obtain ⟨hZero, d, hTakes, hOne⟩ := (fork_iff (by simp)).1 hFork
  exact List.not_mem_nil (mem_after_of_wireBefore hds (mem_takingPart.1 hTakes).1
    (wireBefore_of_one h1 h64 hTakes hZero hOne))

section
variable {ds : List RomAddr} {a b : RomAddr} {p : Nat} (hBetween : ∀ d ∈ ds, wireBefore a d → ¬ wireBefore d b)
  (hSplit : SplitAt a b p)
include hBetween hSplit

/-- The descent to a device marks the position where the next device splits off: at a later fork a device between the
two would take part. -/
theorem descentMark_of_next (ha : a ∈ ds) (hb : b ∈ ds) : descentMark ds a = BitVec.ofNat 7 p := by
  have hFork : Fork ds a p := (fork_iff ha).2
    ⟨hSplit.zero, b, mem_takingPart.2 ⟨hb, fun q hq hlt => (hSplit.agree q hq hlt).symm⟩, hSplit.one⟩
  refine descentMark_of_last_fork hSplit.one_le hSplit.le_64 hFork fun q hpq hq64 hLater => ?_
  obtain ⟨hZero, d, hTakes, hOne⟩ := (fork_iff ha).1 hLater
  obtain ⟨hd, hAgree⟩ := mem_takingPart.1 hTakes
  exact hBetween d hd (wireBefore_of_one (by omega) hq64 hTakes hZero hOne) (hSplit.of_agree_left hpq hAgree).wireBefore

/-- From there the search is led to the next device: a 1 of it beyond the mark would leave a device between the two. -/
theorem leadsTo_next : LeadsTo ds b a p := by
  intro pos h1 h64 hd
  refine ⟨fun h => h ▸ hSplit.one, fun hp => Bool.eq_false_iff.2 fun hOne => ?_, fun h => hSplit.agree pos h1 h⟩
  obtain ⟨⟨d, hTakes, hZero⟩, -⟩ := discrepancy_iff.1 hd
  obtain ⟨hd, hAgree⟩ := mem_takingPart.1 hTakes
  exact hBetween d hd (hSplit.of_agree_right hp hAgree).wireBefore (wireBefore_of_zero h1 h64 hTakes hOne hZero)

end

/-- A descent to a device that is not the last leaves a mark that leads to the next. -/
theorem descentMark_leads {before after : List RomAddr} {a b : RomAddr}
    (hds : (before ++ a :: b :: after).Pairwise wireBefore) :
    descentMark (before ++ a :: b :: after) a ≠ 0 ∧
      LeadsTo (before ++ a :: b :: after) b a (descentMark (before ++ a :: b :: after) a).toNat := by
  have hNext : wireBefore a b := (List.pairwise_cons.1 (List.pairwise_append.1 hds).2.1).1 b List.mem_cons_self
  obtain ⟨p, hSplit⟩ := hNext.exists_splitAt
  have hBetween := fun d => not_wireBefore_between (d := d) hds
  have hMark := descentMark_of_next hBetween hSplit (by simp) (by simp)
  have hNat : (BitVec.ofNat 7 p).toNat = p := by
    rw [BitVec.toNat_ofNat, Nat.mod_eq_of_lt (Nat.lt_of_le_of_lt hSplit.le_64 (by decide))]
  rw [hMark, hNat]
  refine ⟨fun hZero => ?_, leadsTo_next hBetween hSplit⟩
  rw [hZero] at hNat
  exact Nat.ne_of_gt hSplit.one_le hNat.symm

/-! ## The pass (R154) -/

/-- The state after the descents to the devices `post` of `ds`, the last of them `last`, that end a pass. -/
def afterPass (ds post : List RomAddr) (last : RomAddr) (s : State) : State :=
  { s with
    stat := { s.stat with pres := true, srchDone := true }
    srom := last, crc := last[7], lastd := 0, mark := 0, busy := false
    reg := post.foldl registerIn s.reg, line := s.line.play (post.flatMap (wireDescent s.cfg ds)) }

@[simp] theorem samplesOf_wireDescent (c : Config) (ds : List RomAddr) (a : RomAddr) :
    samplesOf (wireDescent c ds a) = descentSamples ds a := by
  simp only [wireDescent, samplesOf_append, samplesOf_wireReset, samplesOf_wireBytesOut, samplesOf_flatMap,
    samplesOf_wireRead, samplesOf_wireWrite, List.append_nil]
  rfl

theorem length_registerIn_le (reg : List RomAddr) (a : RomAddr) : (registerIn reg a).length ≤ reg.length + 1 := by
  unfold registerIn
  split
  · exact Nat.le_succ _
  · rw [List.length_append, List.length_singleton]

theorem mem_registerIn_of_mem {reg : List RomAddr} {d : RomAddr} (h : d ∈ reg) (a : RomAddr) :
    d ∈ registerIn reg a := by
  unfold registerIn
  split
  · exact h
  · exact List.mem_append_left _ h

/-- The rest of a pass over a fixed set, from the descent that is led to `a` on. -/
theorem runPass_toward {ds : List RomAddr} (hds : ds.Pairwise wireBefore) (hv : ∀ d ∈ ds, ValidRom d)
    {rest : List Bool} {after before : List RomAddr} {a : RomAddr} (hSplit : ds = before ++ a :: after) {s : State}
    (hBus : s.line.bus = (a :: after).flatMap (descentSamples ds) ++ rest)
    (hLeads : LeadsTo ds a s.srom s.lastd.toNat)
    (hRoom : ∀ d ∈ a :: after, d ∉ s.reg → s.reg.length + (a :: after).length ≤ s.cfg.nDev)
    {n : Nat} (hn : after.length < n) :
    runPass n s = afterPass ds (a :: after) ((a :: after).getLast (List.cons_ne_nil a after)) s := by
  induction after generalizing before a s n with
  | nil =>
    have ha : a ∈ ds := by simp [hSplit]
    obtain ⟨n, rfl⟩ := Nat.exists_eq_succ_of_ne_zero (Nat.ne_of_gt hn)
    rw [List.flatMap_cons, List.append_assoc] at hBus
    have hDescent := descent_toward ha (hv a ha) hBus hLeads (hRoom a List.mem_cons_self)
    have hMark : descentMark ds a = 0 := by
      subst hSplit
      exact descentMark_last hds
    have hTurn : passTurn s = afterPass ds [a] a s := by
      rw [passTurn_of_exhausted hDescent hMark, afterDescent, afterPass, hMark, List.flatMap_singleton, List.foldl_cons,
        List.foldl_nil]
    rw [runPass_succ_of_ended (by rw [hTurn]; rfl), hTurn]
    rfl
  | cons b after ih =>
    have ha : a ∈ ds := by simp [hSplit]
    obtain ⟨n, rfl⟩ := Nat.exists_eq_succ_of_ne_zero (Nat.ne_of_gt (Nat.zero_lt_of_lt hn))
    rw [List.flatMap_cons, List.append_assoc] at hBus
    have hDescent := descent_toward ha (hv a ha) hBus hLeads fun h => by
      have := hRoom a List.mem_cons_self h
      rw [List.length_cons] at this
      omega
    obtain ⟨hMore, hNext⟩ : descentMark ds a ≠ 0 ∧ LeadsTo ds b a (descentMark ds a).toNat := by
      subst hSplit
      exact descentMark_leads hds
    have hTurn := passTurn_of_more hDescent hMore
    rw [runPass_succ_of_busy (by rw [hTurn]), hTurn]
    rw [ih (before := before ++ [a]) (by simp [hSplit]) ?bus hNext ?room (by simpa using hn)]
    case bus =>
      simp only [afterDescent]
      rw [Line.play_bus, hBus, samplesOf_wireDescent, List.drop_left]
    case room =>
      intro d hd hdNew
      have hNew : d ∉ s.reg := fun h => hdNew (mem_registerIn_of_mem h a)
      have hFits := hRoom d (List.mem_cons_of_mem _ hd) hNew
      have hLength := length_registerIn_le s.reg a
      simp only [afterDescent]
      rw [List.length_cons] at hFits
      omega
    simp only [afterPass, afterDescent, List.flatMap_cons, Line.play_append, List.foldl_cons, List.getLast_cons_cons]

/-- A whole pass over a fixed set of devices, each of them known already or the registry with room for all. -/
theorem findall_fixedSet {s : State} {ds : List RomAddr} {last : RomAddr} {rest : List Bool}
    (hds : ds.Pairwise wireBefore) (hv : ∀ d ∈ ds, ValidRom d) (hLast : ds.getLast? = some last)
    (hn : ds.length ≤ s.cfg.nDev) (hRoom : ∀ d ∈ ds, d ∉ s.reg → s.reg.length + ds.length ≤ s.cfg.nDev)
    (hBus : s.line.bus = ds.flatMap (descentSamples ds) ++ rest) :
    exec .findall s = .next (afterPass ds ds last (startPass (prologue s))) := by
  cases ds with
  | nil => cases hLast
  | cons a after =>
    have hPass := runPass_toward hds hv (before := []) rfl (s := startPass (prologue s)) hBus
      (leadsTo_first hds _) hRoom (n := s.cfg.nDev + 1) (by rw [List.length_cons] at hn; omega)
    rw [exec_findall, continuePass]
    rw [List.getLast?_eq_some_getLast (List.cons_ne_nil a after), Option.some_inj] at hLast
    rw [← hLast, ← hPass]
    rfl

/-- Devices in the order of the wire are all new to a registry that they follow in that order. -/
theorem foldl_registerIn_new {reg ds : List RomAddr} (h : (reg ++ ds).Pairwise wireBefore) :
    ds.foldl registerIn reg = reg ++ ds := by
  induction ds generalizing reg with
  | nil => exact (List.append_nil reg).symm
  | cons a ds ih =>
    have hNew : a ∉ reg := fun ha => wireBefore_irrefl a ((List.pairwise_append.1 h).2.2 a ha a List.mem_cons_self)
    rw [List.append_cons] at h ⊢
    rw [List.foldl_cons, registerIn, if_neg hNew, ih h]

theorem foldl_registerIn_known {reg ds : List RomAddr} (h : ∀ d ∈ ds, d ∈ reg) : ds.foldl registerIn reg = reg := by
  induction ds with
  | nil => rfl
  | cons a ds ih =>
    obtain ⟨ha, hRest⟩ := List.forall_mem_cons.1 h
    rw [List.foldl_cons, registerIn, if_pos ha, ih hRest]

/-- Settles O39: a pass over a fixed set that fills an empty registry. -/
theorem findallFindsFixedSetInOrder : Obligations.FindallFindsFixedSetInOrder := by
  intro s ds last rest hds hv hLast hn hReg hBus
  have hFilled : ds.foldl registerIn s.reg = ds := hReg ▸ foldl_registerIn_new (reg := []) hds
  have hRoom : s.reg.length + ds.length ≤ s.cfg.nDev := by
    rw [hReg, List.length_nil, Nat.zero_add]
    exact hn
  rw [findall_fixedSet hds hv hLast hn (fun _ _ _ => hRoom) hBus, afterPass,
    show (startPass (prologue s)).reg = s.reg from rfl, hFilled]
  rfl

/-- Settles O40: a pass over a fixed set whose devices are all known. -/
theorem findallSecondPassKeepsRegistry : Obligations.FindallSecondPassKeepsRegistry := by
  intro s ds last rest hds hv hLast hn hKnown hBus
  rw [findall_fixedSet hds hv hLast hn (fun d hd hNew => absurd (hKnown d hd) hNew) hBus, afterPass,
    show (startPass (prologue s)).reg = s.reg from rfl, foldl_registerIn_known hKnown]
  rfl

end Sys2Proof.Machine

/-! SUPPORT. Scratch-pad transactions and power query (spec/44_scratchpad.md): the words and the effects of `RDSP`,
`WRSP`, `PWRQ` and `SETRES`. -/

namespace Sys2Proof.Machine

/-! ## Reading the scratch-pad (R166) -/

/-- Settles O30: the frame takes the first sample, in its reset slot, and the command byte none, so the image is made of
the 72 samples after that. -/
theorem rdspReadsScratchPad : Obligations.RdspReadsScratchPad := by
  refine ⟨decodeOfEncode .rdsp rfl, fun s => ?_⟩
  dsimp only [exec, execRdsp]
  refine ⟨fun hPresent => command_of_go ?_, fun hAbsent => command_of_aborted ?_⟩
  · have hSamples :
        (samplesOf (wireMatchFrame s.cfg s.addr ++ wireBytesOut s.cfg [wireReadScratchpad])).length = 1 := by simp
    rw [matchRom_present (s := prologue s) hPresent, Flow.andThen_go, State.writeBytes_eq]
    dsimp only [prologue_cfg, prologue_addr, prologue_line]
    rw [← Line.play_append, Line.readBytes_play, hSamples]
    rfl
  · rw [matchRom_absent (s := prologue s) hAbsent, Flow.andThen_aborted]
    rfl

/-! ## Writing the scratch-pad (R168) -/

/-- The bytes of a scratch-pad write: `RAM[4]` goes out for three families only. -/
theorem scratchFrame_eq (s : State) : scratchFrame s = [wireWriteScratchpad, s.ram[2], s.ram[3]] ++
    if s.addr[0] = 0x10 ∨ s.addr[0] = 0x28 ∨ s.addr[0] = 0x22 then [s.ram[4]] else [] := by
  simp only [scratchFrame, hasConfigReg_iff]

/-- A scratch-pad write at the start of a command leaves what a command of that one frame leaves. -/
theorem writeScratch_prologue_present {s : State} (h : s.line.peek 0 = false) :
    writeScratch (prologue s) = .go (afterFrame (wireMatchFrame s.cfg s.addr ++
      wireBytesOut s.cfg ([wireWriteScratchpad, s.ram[2], s.ram[3]] ++
        if s.addr[0] = 0x10 ∨ s.addr[0] = 0x28 ∨ s.addr[0] = 0x22 then [s.ram[4]] else [])) s) := by
  rw [writeScratch_present (s := prologue s) h, scratchFrame_eq]
  rfl

theorem writeScratch_prologue_absent {s : State} (h : s.line.peek 0 = true) :
    writeScratch (prologue s) = .aborted (afterNoPresence s) :=
  writeScratch_absent (s := prologue s) h

/-- `WRSP` is the scratch-pad write of the image with the new word. -/
theorem execWrsp_eq (tw : BitVec 16) (s : State) :
    execWrsp tw s = command writeScratch { s with ram := #v[s.ram[0], s.ram[1], tw.extractLsb' 8 8, tw.extractLsb' 0 8,
      s.ram[4], s.ram[5], s.ram[6], s.ram[7], s.ram[8]] } := by
  rw [← ram_set_word]
  rfl

/-- Settles O31: the image is updated first, then the scratch-pad write runs on it, to its end or to its abort. -/
theorem wrspWritesScratchPad : Obligations.WrspWritesScratchPad := by
  intro s tw
  dsimp only [exec]
  rw [execWrsp_eq]
  exact ⟨decode_setWidth (op := 0x31) (by decide) rfl rfl,
    fun hPresent => command_of_go (writeScratch_prologue_present hPresent),
    fun hAbsent => command_of_aborted (writeScratch_prologue_absent hAbsent)⟩

/-! ## The power query (R170) -/

/-- Settles O32: `PWR_EXT` is cleared before the selection and takes the sample after that of the reset slot. -/
theorem pwrqReportsPower : Obligations.PwrqReportsPower := by
  intro s all
  dsimp only [exec, execPwrq]
  refine ⟨by cases all <;> decide, fun hPresent => command_of_go ?_, fun hAbsent => command_of_aborted ?_⟩
  · rw [select_present (s := { prologue s with stat.pwrExt := false }) all hPresent, Flow.andThen_go, powerBit_eq,
      Line.peek_play, samplesOf_wireSelectFrame, ← Line.play_append, ← List.append_assoc]
    rfl
  · rw [select_absent (s := { prologue s with stat.pwrExt := false }) all hAbsent, Flow.andThen_aborted]
    rfl

/-! ## The resolution (R173) -/

/-- The word of an operation whose operand is a number in bits 23:16. -/
theorem decode_ofNat {op : Byte} {n : Nat} {i : Instr} (h : n ≤ 255)
    (hEncode : encode i = commandWord op ((BitVec.ofNat 8 n).setWidth 16) false false) (hWf : i.wf = true) :
    decode (op.setWidth 32 ||| BitVec.ofNat 32 n <<< 16) = .ok i := by
  have hNumber : (BitVec.ofNat 8 n).setWidth 32 = BitVec.ofNat 32 n :=
    BitVec.setWidth_ofNat_of_le_of_lt (by decide) (Nat.lt_succ_of_le h)
  rw [← hNumber]
  exact decode_setWidth (by decide) hEncode hWf

/-- The two bits of the resolution field are `n - 9` up to the largest supported resolution. -/
theorem mergeResolution_eq (cfg : Byte) {n : Nat} (h : n ≤ 12) :
    mergeResolution cfg (resolutionCode n) = cfg &&& 0x9F#8 ||| BitVec.ofNat 8 (n - 9) <<< 5 := by
  rw [mergeResolution, resolutionCode, BitVec.setWidth_ofNat_of_le_of_lt (by decide) (by omega)]

/-- What `SETRES` does once the image is updated: the scratch-pad write, then `RES_OK`. -/
def writeScratchThenOk (s : State) : Flow :=
  (writeScratch s).andThen fun t => .go { t with stat.resOk := true }

theorem writeScratchThenOk_present {s : State} (hFamily : s.addr[0] = 0x10 ∨ s.addr[0] = 0x28 ∨ s.addr[0] = 0x22)
    (hPresent : s.line.peek 0 = false) :
    writeScratchThenOk (prologue s) = .go (afterFrame
      (wireMatchFrame s.cfg s.addr ++ wireBytesOut s.cfg [0x4E, s.ram[2], s.ram[3], s.ram[4]])
      { s with stat.resOk := true }) := by
  rw [writeScratchThenOk, writeScratch_prologue_present hPresent, if_pos hFamily, Flow.andThen_go]
  dsimp only [afterFrame]
  rfl

theorem writeScratchThenOk_absent {s : State} (hAbsent : s.line.peek 0 = true) :
    writeScratchThenOk (prologue s) = .aborted (afterNoPresence s) := by
  rw [writeScratchThenOk, writeScratch_prologue_absent hAbsent, Flow.andThen_aborted]

/-- A supported `SETRES` writes the image with the resolution field of its configuration byte replaced. -/
theorem execSetres_supported {n : Nat} {s : State}
    (hFamily : s.addr[0] = 0x10 ∨ s.addr[0] = 0x28 ∨ s.addr[0] = 0x22) (h9 : 9 ≤ n) (h12 : n ≤ 12) :
    execSetres n s = command writeScratchThenOk { s with
      stat.resOk := false
      ram := #v[s.ram[0], s.ram[1], s.ram[2], s.ram[3], s.ram[4] &&& 0x9F#8 ||| BitVec.ofNat 8 (n - 9) <<< 5,
        s.ram[5], s.ram[6], s.ram[7], s.ram[8]] } := by
  have hReg : hasConfigReg s.addr[0] = true := (hasConfigReg_iff _).2 hFamily
  have hBits : resolutionOk n = true := (resolutionOk_iff n).2 ⟨h9, h12⟩
  rw [← ram_set_config, ← mergeResolution_eq _ h12]
  simp only [execSetres, command, prologue_addr, hReg, hBits, Bool.not_true, Bool.false_eq_true, if_false]
  rfl

/-- An unsupported `SETRES` only clears `RES_OK` and aborts. -/
theorem execSetres_unsupported {n : Nat} {s : State} (h : hasConfigReg s.addr[0] = false ∨ resolutionOk n = false) :
    execSetres n s = .next (raise .unsup { prologue s with stat.resOk := false }) := by
  refine command_of_aborted ?_
  cases hFamily : hasConfigReg s.addr[0] with
  | false => simp only [prologue_addr, hFamily, Bool.not_false, if_true, abort]
  | true =>
    have hBits : resolutionOk n = false := h.resolve_left (by rw [hFamily]; decide)
    simp only [hBits, Bool.not_false, if_true, ite_self, abort]

/-- Settles O33: a supported resolution is a scratch-pad write of all three bytes, an unsupported one an abort before
any slot. -/
theorem setresWritesResolution : Obligations.SetresWritesResolution := by
  intro s n
  dsimp only [exec]
  refine ⟨fun hn => decode_ofNat (op := 0x34) hn rfl (decide_eq_true hn), fun hFamily h9 h12 => ?_,
    fun hUnsupported => execSetres_unsupported ?_, rfl⟩
  · rw [execSetres_supported hFamily h9 h12]
    -- Which byte it is has no part in what follows; opaque, it is never computed with.
    generalize s.ram[4] &&& 0x9F#8 ||| BitVec.ofNat 8 (n - 9) <<< 5 = config
    exact ⟨fun hPresent => command_of_go (writeScratchThenOk_present hFamily hPresent),
      fun hAbsent => command_of_aborted (writeScratchThenOk_absent hAbsent)⟩
  · rw [← Bool.not_eq_true, ← Bool.not_eq_true, hasConfigReg_iff, resolutionOk_iff]
    exact hUnsupported.imp_right (by omega)

end Sys2Proof.Machine

/-! SUPPORT. Conversion trigger and system commands (spec/45_convert_system.md): the delay table of R182, the words and
the effects of `CONVT`, `CLRREG`, `INIT` and `NOP`, and the power that `CONVT` alone supplies. -/

namespace Sys2Proof.Machine

/-! ## The conversion delay (R182) -/

/-- The delay of a resolution, by its code in bits 6:5 of the configuration byte. -/
def resolutionMillis (code : BitVec 2) : BitVec 16 :=
  if code = 0 then 94 else if code = 1 then 188 else if code = 2 then 375 else 750

/-- The row of the delay table for `family` at the resolution `code`. -/
def resolutionRow (family : Byte) (code : BitVec 2) : DelayRow :=
  ⟨family, 0x60, code.setWidth 8 <<< 5, resolutionMillis code⟩

/-- The rows of the delay table for a family whose resolution can be set. -/
def resolutionRows (family : Byte) : List DelayRow := [0, 1, 2, 3].map (resolutionRow family)

/-- The delay table has the one fixed row of 0x3B, then the rows of 0x28 and of 0x22. -/
theorem delayTable_rows :
    DelayTable.spec.rows = ⟨0x3B, 0x00, 0x00, 150⟩ :: (resolutionRows 0x28 ++ resolutionRows 0x22) := by
  decide

/-- The mask of a row keeps bits 6:5. -/
theorem and_resolutionMask (cfg : Byte) : cfg &&& 0x60 = (cfg.extractLsb' 5 2).setWidth 8 <<< 5 := by
  ext i hi
  interval_cases i <;> simp

theorem shiftedCode_injective : Function.Injective fun code : BitVec 2 => code.setWidth 8 <<< 5 := by
  decide

/-- A resolution row applies to the devices of its family that are set to its resolution. -/
theorem rowApplies_resolutionRow (family cfg rowFamily : Byte) (code : BitVec 2) :
    rowApplies family cfg (resolutionRow rowFamily code) = (rowFamily == family && cfg.extractLsb' 5 2 == code) := by
  rw [← shiftedCode_injective.beq_eq, ← and_resolutionMask]
  rfl

/-- Of the rows of its own family the one of its resolution applies to a device. -/
theorem find?_resolutionRows_same (family cfg : Byte) :
    (resolutionRows family).find? (rowApplies family cfg) = some (resolutionRow family (cfg.extractLsb' 5 2)) := by
  have hApplies : rowApplies family cfg ∘ resolutionRow family = (cfg.extractLsb' 5 2 == ·) := by
    funext code
    rw [Function.comp_apply, rowApplies_resolutionRow, beq_self_eq_true, Bool.true_and]
  have hCode : ∀ code : BitVec 2, [0, 1, 2, 3].find? (code == ·) = some code := by decide
  rw [resolutionRows, List.find?_map, hApplies, hCode, Option.map_some]

theorem find?_resolutionRows_other {family rowFamily : Byte} (cfg : Byte) (h : rowFamily ≠ family) :
    (resolutionRows rowFamily).find? (rowApplies family cfg) = none := by
  simp [resolutionRows, rowApplies_resolutionRow, h]

/-- The first row that applies, family by family. -/
theorem find?_delayTable (family cfg : Byte) : DelayTable.spec.rows.find? (rowApplies family cfg) =
    if family = 0x3B then some ⟨0x3B, 0x00, 0x00, 150⟩
    else if family = 0x28 ∨ family = 0x22 then some (resolutionRow family (cfg.extractLsb' 5 2))
    else none := by
  have hFixed : rowApplies family cfg ⟨0x3B, 0x00, 0x00, 150⟩ = (0x3B == family) := by simp [rowApplies]
  rw [delayTable_rows, List.find?_cons, hFixed, List.find?_append]
  by_cases h3B : family = 0x3B
  · subst h3B
    rfl
  by_cases h28 : family = 0x28
  · subst h28
    rw [find?_resolutionRows_same]
    rfl
  rw [find?_resolutionRows_other cfg (Ne.symm h28)]
  by_cases h22 : family = 0x22
  · subst h22
    rw [find?_resolutionRows_same]
    rfl
  rw [find?_resolutionRows_other cfg (Ne.symm h22), if_neg h3B, if_neg (not_or.2 ⟨h28, h22⟩),
    beq_false_of_ne (Ne.symm h3B)]
  rfl

/-- Settles O35: `ConvDelay` is the broadcast delay or that of the first row that applies. -/
theorem conversionDelayTable : Obligations.ConversionDelayTable := by
  intro all family cfg
  change _ = if all = true then 750 else if family = 0x3B then 150
    else if family = 0x28 ∨ family = 0x22 then resolutionMillis (cfg.extractLsb' 5 2) else 750
  rw [convDelay, find?_delayTable]
  split_ifs <;> rfl

/-! ## The commands (R185, R188, R190, R192) -/

/-- Settles O19: neither command has more than the prologue and, for `CLRREG`, the emptied registry. -/
theorem nopAndClrregTouchNoPin : Obligations.NopAndClrregTouchNoPin :=
  ⟨decodeOfEncode .nop rfl, decodeOfEncode .clrreg rfl, fun _ => ⟨rfl, rfl⟩⟩

/-- Settles O34: the frame and the command byte, then the power phase, which takes the delay or leaves it in `DELAY`. -/
theorem convtTriggersConversion : Obligations.ConvtTriggersConversion := by
  intro s all wait
  dsimp only [exec, execConvt]
  refine ⟨by cases all <;> cases wait <;> decide, fun hPresent => command_of_go ?_, fun hAbsent => command_of_aborted ?_⟩
  · rw [select_present (s := { prologue s with delay := 0 }) all hPresent, Flow.andThen_go, powerPhase_eq,
      State.writeBytes_eq]
    dsimp only
    rw [← Line.play_append, ← Line.play_append]
    rfl
  · rw [select_absent (s := { prologue s with delay := 0 }) all hAbsent, Flow.andThen_aborted]
    rfl

/-- What `INIT` clears before its power query: registry and image, with the parasite strategy assumed (R190). -/
abbrev initCleared (s : State) : State :=
  { s with reg := [], ram := .replicate 9 0, stat.pwrExt := false, ctrl.parasite := true }

/-- Settles O36: `PWR_EXT` takes the sample after that of the reset slot, and `PARASITE` its complement. -/
theorem initQueriesPower : Obligations.InitQueriesPower := by
  refine ⟨decodeOfEncode .init rfl, fun s => ?_⟩
  dsimp only [exec, execInit]
  refine ⟨fun hPresent => command_of_go ?_, fun hAbsent => command_of_aborted ?_⟩
  · rw [skipRom_present (s := initCleared (prologue s)) hPresent, Flow.andThen_go, powerBit_eq,
      Line.peek_play, samplesOf_wireSkipFrame, ← Line.play_append, ← List.append_assoc]
    rfl
  · rw [skipRom_absent (s := initCleared (prologue s)) hAbsent, Flow.andThen_aborted]
    rfl

/-! ## Power on the bus (R186) -/

/-- Slots supply no power, and only a `CONVT` has more than slots. -/
theorem CommandEvents.noPower {i : Instr} {l : Line} {c : Ctrl} {es : List Event} (h : CommandEvents i l c es)
    (hi : isConvt i = false) : .driveHigh ∉ es ∧ .pwrOn ∉ es := by
  cases h with
  | slots hes => exact ⟨hes.noHigh, hes.noPower⟩
  | powered hConvt => exact absurd hConvt (hi ▸ Bool.false_ne_true)

/-- Settles O55: a command other than `CONVT` is made of slots; the trace holds their events newest first. -/
theorem onlyConvtSuppliesPower : Obligations.OnlyConvtSuppliesPower := by
  intro i s t es h hTrace hi
  rw [← List.reverse_reverse es] at hTrace
  simpa only [List.mem_reverse] using (h.events_of_trace hTrace).noPower hi

end Sys2Proof.Machine

/-! SUPPORT. Errors (spec/60_exceptions.md): which command can leave which code in `ERR`, and that no move expected of a
host gives `E_ILL`. -/

namespace Sys2Proof.Machine

/-! ## An illegal word (R226) -/

theorem runWord_of_reject {w : Word} {r : Reject} (h : decode w = .error r) (s : State) :
    runWord w s = .next (illegalWord s) := by
  rw [runWord, h]

/-- Settles O7: a step that writes an illegal word raises `E_ILL`, whose flag is 0x10. -/
theorem illegalWordReportsEIll : Obligations.IllegalWordReportsEIll := by
  intro s w r rest hb hh hd
  rw [step_of_word hb hh, runWord_of_reject hd]
  exact ⟨rfl, rfl⟩

/-! ## The codes a command may leave (R215) -/

/-- The code in `ERR` is one that the command `i` can raise, or none. -/
def ErrAllowed (i : Instr) (s : State) : Prop := canRaise s.stat.err i = true

theorem ErrAllowed.of_noError {s : State} (i : Instr) (h : s.stat.err = .none) : ErrAllowed i s :=
  congrArg (canRaise · i) h

theorem ErrAllowed.raise {i : Instr} {e : Err} (h : canRaise e i = true) (s : State) : ErrAllowed i (raise e s) := h

/-- The part of a command that aborts leaves its own code; one that goes on leaves the rest to raise another. -/
theorem ErrAllowed.andThen {i : Instr} {f : Flow} {g : State → Flow} (hf : ErrAllowed i f.state)
    (hg : ∀ t, ErrAllowed i t → ErrAllowed i (g t).state) : ErrAllowed i (f.andThen g).state := by
  cases f with
  | go t => exact hg t hf
  | aborted t => exact hf

/-- The prologue clears `ERR` (R219), so the body starts with no code. -/
theorem ErrAllowed.command {i : Instr} {body : State → Flow} {s t : State} (h : command body s = .next t)
    (hbody : ∀ u, ErrAllowed i u → ErrAllowed i (body u).state) : ErrAllowed i t :=
  command_eq_next h ▸ hbody (prologue s) (.of_noError i rfl)

theorem resetOrAbort_errAllowed {i : Instr} (hi : canRaise .noPres i = true) {s : State} (h : ErrAllowed i s) :
    ErrAllowed i (resetOrAbort s).state := by
  cases hp : s.line.peek 0 with
  | false =>
    rw [resetOrAbort_present hp]
    exact h
  | true =>
    rw [resetOrAbort_absent hp]
    exact hi

theorem select_errAllowed {i : Instr} (hi : canRaise .noPres i = true) (all : Bool) {s : State} (h : ErrAllowed i s) :
    ErrAllowed i (select all s).state := by
  cases all with
  | false => exact (resetOrAbort_errAllowed hi h).andThen fun t ht => ht
  | true => exact (resetOrAbort_errAllowed hi h).andThen fun t ht => ht

theorem writeScratch_errAllowed {i : Instr} (hi : canRaise .noPres i = true) {s : State} (h : ErrAllowed i s) :
    ErrAllowed i (writeScratch s).state :=
  (select_errAllowed hi false h).andThen fun _ ht => ht

theorem powerPhase_errAllowed {i : Instr} (d : BitVec 16) (wait : Bool) {s : State} (h : ErrAllowed i s) :
    ErrAllowed i (powerPhase d wait s) := by
  rw [powerPhase_eq]
  exact h

/-! ## `FINDALL` (R155) -/

/-- An aborted descent leaves one of the four codes of a search. -/
theorem descent_errAllowed {s : State} (h : ErrAllowed .findall s) : ErrAllowed .findall (descent s).state := by
  obtain ⟨x, m, es, -, -, hEnd⟩ := descent_spec s
  generalize descent s = f at hEnd
  cases hEnd with
  | noPresence | collision | checksum | overflow => exact .raise rfl _
  | known | found => exact h

theorem passTurn_errAllowed (s : State) (h : ErrAllowed .findall s) : ErrAllowed .findall (passTurn s) := by
  have hDescent := descent_errAllowed h
  obtain ⟨t, hd, hp⟩ | ⟨t, hd, -, hp⟩ | ⟨t, hd, -, hp⟩ := passTurn_cases s
  all_goals
    rw [hd] at hDescent
    rw [hp]
    exact hDescent

theorem continuePass_errAllowed {s : State} (h : ErrAllowed .findall s) : ErrAllowed .findall (continuePass s) :=
  runPass_keeps passTurn_errAllowed _ h

/-! ## Every command -/

/-- Every command leaves a code of its own: most have only the abort of their frame, if any (R224); `FINDALL`, `LDADDR`
and `SETRES` have more. -/
theorem exec_errAllowed {i : Instr} {s t : State} (h : exec i s = .next t) : ErrAllowed i t := by
  cases i with dsimp only [exec] at h
  | nop | reset | wbit _ | rbit | wbyte _ | rbyte | crci _ | crcb _ | crcd | crcrom | crcram | clrreg =>
    exact .command h fun _ hu => hu
  | matchrom => exact .command h fun _ => select_errAllowed rfl false
  | skip => exact .command h fun _ => select_errAllowed rfl true
  | rdrom => exact .command h fun _ hu => .andThen (resetOrAbort_errAllowed rfl hu) fun _ ht => ht
  | findall => exact .command h fun u hu => continuePass_errAllowed (s := startPass u) hu
  | ldaddr index =>
    refine .command h fun u hu => ?_
    cases u.reg[index]? with
    | some a => exact hu
    | none => exact .raise rfl u
  | rdsp => exact .command h fun _ hu => .andThen (select_errAllowed rfl false hu) fun _ ht => ht
  | wrsp word => exact .command h fun _ hu => writeScratch_errAllowed rfl hu
  | pwrq all => exact .command h fun _ hu => .andThen (select_errAllowed rfl all hu) fun _ ht => ht
  | convt all wait =>
    exact .command h fun _ hu => .andThen (select_errAllowed rfl all hu) fun _ ht => powerPhase_errAllowed _ wait ht
  | setres bits =>
    refine .command h fun u hu => ?_
    dsimp only
    split
    · exact .raise rfl _
    · split
      · exact .raise rfl _
      · exact .andThen (writeScratch_errAllowed rfl hu) fun _ ht => ht
  | init => exact .command h fun _ hu => .andThen (select_errAllowed rfl true hu) fun _ ht => ht

/-- Settles O50: a command starts with no code and each of its parts leaves one of its own; so does a pass that goes
on. -/
theorem errorsHaveTheirRaisers : Obligations.ErrorsHaveTheirRaisers := by
  rintro i s t (hExec | ⟨rfl, hGoes, hClean⟩)
  · exact exec_errAllowed hExec
  · rw [hGoes.eq]
    exact continuePass_errAllowed (.of_noError _ hClean.noError)

/-! ## Expected moves (R226) -/

/-- No command raises `E_ILL`: it belongs to the decoder (R215). -/
theorem exec_err_ne_ill {i : Instr} {s t : State} (h : exec i s = .next t) : t.stat.err ≠ .ill := by
  intro hIll
  have hAllowed : canRaise t.stat.err i = true := exec_errAllowed h
  rw [hIll] at hAllowed
  cases hAllowed

/-- A legal word written to `CMD` leaves no `E_ILL`. -/
theorem runWord_legal_err_ne_ill {w : Word} {s t : State} (hw : (decode w).toBool = true) (h : runWord w s = .next t) :
    t.stat.err ≠ .ill := by
  cases hd : decode w with
  | ok i => exact exec_err_ne_ill (runWord_of_decode hd s ▸ h)
  | error r =>
    rw [hd] at hw
    cases hw

theorem regWrite_stat (n : RegNo) (v : Word) (s : State) : (regWrite n v s).stat = s.stat := by
  obtain ⟨_, _, _, _, _, _, hShape⟩ := regWrite_shape n v s
  rw [hShape]

/-- A command cut by `rst` leaves the reset value of `STAT` (R247). -/
theorem commandCut_stat {w : Word} {k : Nat} {s t : State} (h : commandCut w k s = .next t) :
    t.stat = State.reset.stat := by
  unfold commandCut at h
  split at h
  · exact Host.Outcome.next.inj h ▸ hardReset_stat _
  · cases h
  · cases h

/-- An expected move leaves `ERR` alone or a code other than `E_ILL`. -/
theorem hostMove_expected_err {m : HostMove} {s t : State} (hm : m.expected = true) (h : hostMove m s = .next t) :
    t.stat.err = s.stat.err ∨ t.stat.err ≠ .ill := by
  cases m with dsimp only [hostMove] at h
  | read n => exact .inl (Host.Outcome.next.inj h ▸ rfl)
  | write n v =>
    split at h
    · next hn =>
      subst hn
      exact .inr (runWord_legal_err_ne_ill (by simpa [HostMove.expected] using hm) h)
    · exact .inl (Host.Outcome.next.inj h ▸ congrArg Stat.err (regWrite_stat n v s))
  | rst => exact .inr (Host.Outcome.next.inj h ▸ nofun)
  | commandCut w k => exact .inr (commandCut_stat h ▸ nofun)

/-- Settles O51: only the decoder raises `E_ILL`, and only for a word that is no expected move. -/
theorem expectedMovesNeverGiveEIll : Obligations.ExpectedMovesNeverGiveEIll := by
  intro s t m rest hb hh hm h hIll
  rw [step_of_move hb hh] at h
  have hErr : t.stat.err = s.stat.err ∨ t.stat.err ≠ .ill :=
    hostMove_expected_err (s := { s with host := rest }) hm h
  exact (hErr.resolve_right fun hNe => hNe hIll) ▸ hIll

end Sys2Proof.Machine

/-! SUPPORT. Hardware reset (spec/70_reset_and_hazards.md R245, R247, R248): when no move is to come, between two commands
or two descents of a pass, and in the middle of a command. -/

namespace Sys2Proof.Machine

/-! ## Nothing to do, and `rst` (R245, R248) -/

/-- Settles O9: the port is free, and the step has no move to take. -/
theorem idleControllerDoesNothing : Obligations.IdleControllerDoesNothing := by
  intro s hb hh
  simp [step, hb, nextMove, hh]

/-- `rst` acts on a busy controller as on a free one. -/
theorem step_of_rst {s : State} {rest : List HostMove} (hh : s.host = .rst :: rest) :
    step s = .next (hardReset { s with host := rest }) := by
  obtain hb | hb := Bool.eq_false_or_eq_true s.busy
  · rw [step_of_busy hb, whileBusy, hh]
  · exact step_of_move hb hh

/-- The pins take their reset values; what was recorded and the samples to come stay. -/
theorem Line.emit_rst (l : Line) :
    l.emit .rst = { Line.reset with trace := .rst :: l.trace, bus := l.bus, drawn := l.drawn } := rfl

/-- Settles O11: the step is a hardware reset, busy or not. -/
theorem rstGivesResetState : Obligations.RstGivesResetState := by
  intro s rest hh
  rw [step_of_rst hh, hardReset, Line.emit_rst]

/-! ## `rst` during a command (R247) -/

/-- The trace tells which events led from one state to another. -/
theorem newEvents_of_play {s t : State} {es : List Event} (h : t.line = s.line.play es) : newEvents s t = es := by
  have hTrace : t.line.trace = es.reverse ++ s.line.trace := by rw [h, Line.play_trace]
  simp [newEvents, hTrace]

/-- Of a command that would have played `es`, the first `k` events reach the line before the reset. -/
theorem cutAt_of_play {s t : State} {es : List Event} (h : t.line = s.line.play es) (k : Nat) :
    cutAt k s t = hardReset { s with line := s.line.play (es.take k) } := by
  rw [cutAt, newEvents_of_play h]
  rfl

/-- A word whose command ends within its step is cut without any further turn of a pass. -/
theorem commandCut_of_ended {w : Word} {s t : State} (h : runWord w s = .next t) (hb : t.busy = false) (k : Nat) :
    commandCut w k s = .next (cutAt k s t) := by
  simp [commandCut, h, hb]

/-- Settles O12: the cut keeps the first `k` of the command's events, and the hardware reset takes the rest of the state
to its reset values. -/
theorem rstCutsCommandShort : Obligations.RstCutsCommandShort := by
  intro s u w k es rest hb hh hRun hEnded hLine
  have hStep : step s = commandCut w k { s with host := rest } := step_of_move hb hh
  rw [hStep, commandCut_of_ended hRun hEnded, cutAt_of_play (s := { s with host := rest }) hLine, hardReset]

end Sys2Proof.Machine
